-- ==== Sys2Proof/Word.lean ====
section
/-! DEFINITION. The plain types of the machine's values: bytes, 16-bit words, the fields of an
instruction word (spec/00_scope.md R11, R13; spec/30_encoding.md R72). -/

namespace Sys2Proof

/-- A u8: a memory element, a general register, a timer (R11, R20, R50). -/
abbrev Byte := BitVec 8

/-- A u16: an instruction word, `I`, `pc`, a stack entry (R11, R23, R24, R26, R70). -/
abbrev Word := BitVec 16

/-- The 12-bit address operand `NNN` (R13, R72). -/
abbrev Addr := BitVec 12

/-- The 4-bit count operand `N` (R13, R72). -/
abbrev Nibble := BitVec 4

/-- A general register's number, V0 to VF (R20); also the number of a key flag (R33). -/
abbrev Reg := Fin 16

/-- `hi ++ lo` of R11: the word whose more significant byte is `hi`. -/
def wordOfBytes (hi lo : Byte) : Word := hi ++ lo

end Sys2Proof
end

