-- ==== Sys2Proof/Syntax.lean ====
section
/-! DEFINITION. The instruction set, one constructor per row of spec/opcode_table.json
(spec/30_encoding.md R74). Operands are the fields of R72. -/

namespace Sys2Proof

/-- The 35 instructions of R74, SYS counted, in the order of the opcode table. -/
inductive Instr where
  /-- 00E0 `CLS` (R156). -/
  | cls
  /-- 00EE `RET` (R106). -/
  | ret
  /-- 0NNN `SYS addr`, NNN neither 0x0E0 nor 0x0EE (R107). -/
  | sys (nnn : Addr)
  /-- 1NNN `JP addr` (R108). -/
  | jp (nnn : Addr)
  /-- 2NNN `CALL addr` (R109). -/
  | call (nnn : Addr)
  /-- 3XNN `SE Vx, byte` (R116). -/
  | seImm (x : Reg) (nn : Byte)
  /-- 4XNN `SNE Vx, byte` (R117). -/
  | sneImm (x : Reg) (nn : Byte)
  /-- 5XY0 `SE Vx, Vy` (R118). -/
  | seReg (x y : Reg)
  /-- 6XNN `LD Vx, byte` (R125). -/
  | ldImm (x : Reg) (nn : Byte)
  /-- 7XNN `ADD Vx, byte` (R126). -/
  | addImm (x : Reg) (nn : Byte)
  /-- 8XY0 `LD Vx, Vy` (R127). -/
  | ldReg (x y : Reg)
  /-- 8XY1 `OR Vx, Vy` (R128). -/
  | orReg (x y : Reg)
  /-- 8XY2 `AND Vx, Vy` (R129). -/
  | andReg (x y : Reg)
  /-- 8XY3 `XOR Vx, Vy` (R130). -/
  | xorReg (x y : Reg)
  /-- 8XY4 `ADD Vx, Vy` (R131). -/
  | addReg (x y : Reg)
  /-- 8XY5 `SUB Vx, Vy` (R132). -/
  | sub (x y : Reg)
  /-- 8XY6 `SHR Vx, Vy` (R133). -/
  | shr (x y : Reg)
  /-- 8XY7 `SUBN Vx, Vy` (R134). -/
  | subn (x y : Reg)
  /-- 8XYE `SHL Vx, Vy` (R135). -/
  | shl (x y : Reg)
  /-- 9XY0 `SNE Vx, Vy` (R119). -/
  | sneReg (x y : Reg)
  /-- ANNN `LD I, addr` (R145). -/
  | ldI (nnn : Addr)
  /-- BNNN `JP V0, addr` (R113). -/
  | jpV0 (nnn : Addr)
  /-- CXNN `RND Vx, byte` (R136). -/
  | rnd (x : Reg) (nn : Byte)
  /-- DXYN `DRW Vx, Vy, nibble` (R158). -/
  | drw (x y : Reg) (n : Nibble)
  /-- EX9E `SKP Vx` (R120). -/
  | skp (x : Reg)
  /-- EXA1 `SKNP Vx` (R121). -/
  | sknp (x : Reg)
  /-- FX07 `LD Vx, DT` (R165). -/
  | ldVxDT (x : Reg)
  /-- FX0A `LD Vx, K` (R166). -/
  | ldVxK (x : Reg)
  /-- FX15 `LD DT, Vx` (R167). -/
  | ldDTVx (x : Reg)
  /-- FX18 `LD ST, Vx` (R168). -/
  | ldSTVx (x : Reg)
  /-- FX1E `ADD I, Vx` (R147). -/
  | addIVx (x : Reg)
  /-- FX29 `LD F, Vx` (R148). -/
  | ldFVx (x : Reg)
  /-- FX33 `LD B, Vx` (R149). -/
  | ldBVx (x : Reg)
  /-- FX55 `LD [I], Vx` (R150). -/
  | ldMemVx (x : Reg)
  /-- FX65 `LD Vx, [I]` (R151). -/
  | ldVxMem (x : Reg)
  deriving DecidableEq, Repr

end Sys2Proof
end

