-- ==== Sys2Proof/Decode.lean ====
section
/-! DEFINITION. The decoder and the encoder, from spec/30_encoding.md: fields R72, decoding R74 to
R79, the illegal space R80. -/

namespace Sys2Proof

/-! ## The decoder -/

/-- What decoding answers: an instruction, or a rejection by name. -/
inductive Decoded where
  /-- The word of an instruction of R74. -/
  | instr (i : Instr)
  /-- `Illegal(op)`: a word of the illegal space other than SYS (R74, R80). -/
  | illegal (op : Word)
  /-- Fewer than the two bytes of an instruction (R70). Only a caller of `decode` with a short list sees it. -/
  | truncated
  deriving DecidableEq, Repr

/-- `family = op[15:12]` (R72). -/
def fieldFamily (op : Word) : Nat := (op.extractLsb' 12 4).toNat

/-- `x = op[11:8]` (R72). -/
def fieldX (op : Word) : Reg := (op.extractLsb' 8 4).toFin

/-- `y = op[7:4]` (R72). -/
def fieldY (op : Word) : Reg := (op.extractLsb' 4 4).toFin

/-- `N = op[3:0]` (R72). -/
def fieldN (op : Word) : Nibble := op.extractLsb' 0 4

/-- `NN = op[7:0]` (R72). -/
def fieldNN (op : Word) : Byte := op.extractLsb' 0 8

/-- `NNN = op[11:0]` (R72). -/
def fieldNNN (op : Word) : Addr := op.extractLsb' 0 12

/-- Family 0 (R75): exactly 00E0 and 00EE, every other word is SYS. -/
def decodeFamily0 (op : Word) : Decoded :=
  if op = 0x00E0#16 then .instr .cls
  else if op = 0x00EE#16 then .instr .ret
  else .instr (.sys (fieldNNN op))

/-- Family 8 by N (R76). -/
def decodeFamily8 (op : Word) : Decoded :=
  match (fieldN op).toNat with
  | 0x0 => .instr (.ldReg (fieldX op) (fieldY op))
  | 0x1 => .instr (.orReg (fieldX op) (fieldY op))
  | 0x2 => .instr (.andReg (fieldX op) (fieldY op))
  | 0x3 => .instr (.xorReg (fieldX op) (fieldY op))
  | 0x4 => .instr (.addReg (fieldX op) (fieldY op))
  | 0x5 => .instr (.sub (fieldX op) (fieldY op))
  | 0x6 => .instr (.shr (fieldX op) (fieldY op))
  | 0x7 => .instr (.subn (fieldX op) (fieldY op))
  | 0xE => .instr (.shl (fieldX op) (fieldY op))
  | _ => .illegal op

/-- Family E by NN (R77). -/
def decodeFamilyE (op : Word) : Decoded :=
  if fieldNN op = 0x9E#8 then .instr (.skp (fieldX op))
  else if fieldNN op = 0xA1#8 then .instr (.sknp (fieldX op))
  else .illegal op

/-- Family F by NN (R78). -/
def decodeFamilyF (op : Word) : Decoded :=
  if fieldNN op = 0x07#8 then .instr (.ldVxDT (fieldX op))
  else if fieldNN op = 0x0A#8 then .instr (.ldVxK (fieldX op))
  else if fieldNN op = 0x15#8 then .instr (.ldDTVx (fieldX op))
  else if fieldNN op = 0x18#8 then .instr (.ldSTVx (fieldX op))
  else if fieldNN op = 0x1E#8 then .instr (.addIVx (fieldX op))
  else if fieldNN op = 0x29#8 then .instr (.ldFVx (fieldX op))
  else if fieldNN op = 0x33#8 then .instr (.ldBVx (fieldX op))
  else if fieldNN op = 0x55#8 then .instr (.ldMemVx (fieldX op))
  else if fieldNN op = 0x65#8 then .instr (.ldVxMem (fieldX op))
  else .illegal op

/-- The decoder of R74, total on every word. -/
def decodeWord (op : Word) : Decoded :=
  match fieldFamily op with
  | 0x0 => decodeFamily0 op
  | 0x1 => .instr (.jp (fieldNNN op))
  | 0x2 => .instr (.call (fieldNNN op))
  | 0x3 => .instr (.seImm (fieldX op) (fieldNN op))
  | 0x4 => .instr (.sneImm (fieldX op) (fieldNN op))
  | 0x5 => if fieldN op = 0#4 then .instr (.seReg (fieldX op) (fieldY op)) else .illegal op
  | 0x6 => .instr (.ldImm (fieldX op) (fieldNN op))
  | 0x7 => .instr (.addImm (fieldX op) (fieldNN op))
  | 0x8 => decodeFamily8 op
  | 0x9 => if fieldN op = 0#4 then .instr (.sneReg (fieldX op) (fieldY op)) else .illegal op
  | 0xA => .instr (.ldI (fieldNNN op))
  | 0xB => .instr (.jpV0 (fieldNNN op))
  | 0xC => .instr (.rnd (fieldX op) (fieldNN op))
  | 0xD => .instr (.drw (fieldX op) (fieldY op) (fieldN op))
  | 0xE => decodeFamilyE op
  | 0xF => decodeFamilyF op
  | _ => .illegal op

/-- Decoding the bytes at an address: the first two, the one at the lower address more significant
(spec/20_memory.md R55). -/
def decode : List Byte → Decoded
  | hi :: lo :: _ => decodeWord (wordOfBytes hi lo)
  | _ => .truncated

/-! ## The encoder -/

/-- A register number as the 4-bit field of R71. -/
def regField (x : Reg) : Nibble := BitVec.ofFin x

/-- Shape `XNN` of R71. -/
def encodeXNN (family : Nibble) (x : Reg) (nn : Byte) : Word := family ++ regField x ++ nn

/-- Shape `XYN` of R71. -/
def encodeXYN (family : Nibble) (x y : Reg) (n : Nibble) : Word := family ++ regField x ++ regField y ++ n

/-- Shape `NNN` of R71. -/
def encodeNNN (family : Nibble) (nnn : Addr) : Word := family ++ nnn

/-- The word of an instruction: the "encoding" rows of the opcode table (R71, R74 to R79). -/
def encode : Instr → Word
  | .cls => 0x00E0#16
  | .ret => 0x00EE#16
  | .sys nnn => encodeNNN 0x0 nnn
  | .jp nnn => encodeNNN 0x1 nnn
  | .call nnn => encodeNNN 0x2 nnn
  | .seImm x nn => encodeXNN 0x3 x nn
  | .sneImm x nn => encodeXNN 0x4 x nn
  | .seReg x y => encodeXYN 0x5 x y 0x0
  | .ldImm x nn => encodeXNN 0x6 x nn
  | .addImm x nn => encodeXNN 0x7 x nn
  | .ldReg x y => encodeXYN 0x8 x y 0x0
  | .orReg x y => encodeXYN 0x8 x y 0x1
  | .andReg x y => encodeXYN 0x8 x y 0x2
  | .xorReg x y => encodeXYN 0x8 x y 0x3
  | .addReg x y => encodeXYN 0x8 x y 0x4
  | .sub x y => encodeXYN 0x8 x y 0x5
  | .shr x y => encodeXYN 0x8 x y 0x6
  | .subn x y => encodeXYN 0x8 x y 0x7
  | .shl x y => encodeXYN 0x8 x y 0xE
  | .sneReg x y => encodeXYN 0x9 x y 0x0
  | .ldI nnn => encodeNNN 0xA nnn
  | .jpV0 nnn => encodeNNN 0xB nnn
  | .rnd x nn => encodeXNN 0xC x nn
  | .drw x y n => encodeXYN 0xD x y n
  | .skp x => encodeXNN 0xE x 0x9E
  | .sknp x => encodeXNN 0xE x 0xA1
  | .ldVxDT x => encodeXNN 0xF x 0x07
  | .ldVxK x => encodeXNN 0xF x 0x0A
  | .ldDTVx x => encodeXNN 0xF x 0x15
  | .ldSTVx x => encodeXNN 0xF x 0x18
  | .addIVx x => encodeXNN 0xF x 0x1E
  | .ldFVx x => encodeXNN 0xF x 0x29
  | .ldBVx x => encodeXNN 0xF x 0x33
  | .ldMemVx x => encodeXNN 0xF x 0x55
  | .ldVxMem x => encodeXNN 0xF x 0x65

/-- The bytes of an instruction word as they lie in memory, lowest address first (R55, R70). -/
def bytesOfWord (op : Word) : List Byte := [op.extractLsb' 8 8, op.extractLsb' 0 8]

/-! ## Reading a word of the opcode table -/

/-- The 16-bit word of the table's number `w` of `nbits` bits; bits above `nbits` are 0. Every row of
the table is one 16-bit word, most significant bit first in memory (R55, R70). -/
def tableWord (nbits w : Nat) : Word := BitVec.ofNat 16 (w % 2 ^ nbits)

/-- The instruction that the decoder reads from a table word laid out as the memory stores it. -/
def decodeTableWord (nbits w : Nat) : Option Instr :=
  match decode (bytesOfWord (tableWord nbits w)) with
  | .instr i => some i
  | .illegal _ => none
  | .truncated => none

end Sys2Proof
end

