-- ==== Sys2Proof/Config.lean ====
section
/-! DEFINITION. What an implementation fixes (spec/00_scope.md R6) and the one free value, the random
byte of CXNN (R7). -/

namespace Sys2Proof

/-- What executing an illegal word does (R190): the two policies the spec names. -/
inductive IllegalPolicy where
  /-- Raise IllegalInstruction (the spec's value, D6). -/
  | fault
  /-- No effect beyond the default advance. -/
  | nop
  deriving DecidableEq, Repr

/-- The three parameters of R6 that a model may expose as configuration fields. -/
structure Config where
  /-- SHIFT_USES_VY: 8XY6 and 8XYE shift Vy into Vx (R133, R135). -/
  shiftUsesVy : Bool
  /-- LOADSTORE_INCREMENTS_I: FX55 and FX65 leave `I` after the last byte moved (R150, R151). -/
  loadStoreIncrementsI : Bool
  /-- ILLEGAL_POLICY (R190). -/
  illegalPolicy : IllegalPolicy
  deriving DecidableEq, Repr

/-- The values of R6's table (decisions D4, D5, D6 of the spec). -/
def Config.spec : Config :=
  { shiftUsesVy := false, loadStoreIncrementsI := false, illegalPolicy := .fault }

/-- MEM_SIZE (R6, R50). -/
abbrev memSize : Nat := 4096

/-- LOAD_ADDR (R6), the reset vector (R197). -/
abbrev loadAddr : Nat := 0x200

/-- MAX_IMAGE (R6, R198). -/
abbrev maxImage : Nat := memSize - loadAddr

/-- STACK_DEPTH (R6, R26). -/
abbrev stackDepth : Nat := 16

/-- FB_W (R6, R32). -/
abbrev screenWidth : Nat := 64

/-- FB_H (R6, R32). -/
abbrev screenHeight : Nat := 32

/-- FREE VALUE (R7, R136, D23): the random byte that the n-th execution of CXNN consumes, a byte
supplied from outside the state under no law. It has no body, so nothing can be proved of its value.
State's field `draws` says which one comes next (assumption log 2). -/
opaque Config.randomByte : Nat → Byte

end Sys2Proof
end

