-- ==== Sys2Proof/Machine/State.lean ====
section
/-! DEFINITION. The Interpreter State (spec/10_state.md) as plain data, the reasons a step may stop,
and the state after reset (R36). -/

namespace Sys2Proof.Machine

/-- The memory of R50 as a list of (address, byte) pairs in one canonical form (`Memory.wf` in
Machine/Ops.lean): addresses strictly rising, no entry equal to the reset contents of its address. -/
abbrev Memory := List Host.Cell

/-- The framebuffer of R32, row-major: element `y` is row `y`, and bit `x` of a row is cell (x, y), the
spec's element `y * 64 + x` (R34: "64x32 x 1 ... 2048 bits"). Read and written through `Screen.cell`,
`Screen.toggle` and `Screen.clear` only (assumption log 11). -/
abbrev Screen := Vector (BitVec 64) 32

/-- The fault kinds of spec/60_exceptions.md R176. -/
inductive FaultKind where
  | illegalInstruction
  | stackOverflow
  | stackUnderflow
  | memoryOutOfBounds
  | keyIndexOutOfRange
  deriving DecidableEq, Repr

/-- FaultRecord of R177: what the raise of R178 records. -/
structure FaultRecord where
  kind : FaultKind
  /-- The number of the kind in R176's table. -/
  code : Nat
  /-- pc0, the address of the faulting instruction. -/
  pc : Word
  /-- The instruction word; none for a fetch that could not read it. -/
  opcode : Option Word
  /-- What R178's `info` records: the bad address, the key index, or the illegal word. -/
  info : Option Nat
  deriving DecidableEq, Repr

/-- The whole state of R36, and one field of the model's own (`draws`). -/
structure State where
  /-- `mem` (R50). -/
  mem : Memory
  /-- `V[0]` to `V[15]` (R20); `V[15]` is VF (R22). -/
  v : Vector Byte 16
  /-- `I` (R23). -/
  i : Word
  /-- `pc` (R24). -/
  pc : Word
  /-- The call stack (R26): at most 16 return addresses, top last. -/
  stack : List Word
  /-- `DT`, the delay timer (R27). -/
  dt : Byte
  /-- `ST`, the sound timer (R28). -/
  st : Byte
  /-- `FB`, the framebuffer (R32). -/
  fb : Screen
  /-- `KEY[0]` to `KEY[15]` (R33). -/
  key : Vector Bool 16
  /-- The redraw flag (R29). -/
  redraw : Bool
  /-- The blocked-on-key condition (R30). -/
  waiting : Bool
  /-- The register that a finished wait writes (R30). -/
  waitReg : Reg
  /-- The fault status (R31, R177). -/
  fault : Option FaultRecord
  /-- THE MODEL'S OWN, not the spec's state (R37): how many random bytes CXNN has consumed. The next
  one is `Config.randomByte draws` (R7; assumption log 2). -/
  draws : Nat
  deriving DecidableEq, Repr

/-- Why a step could stop outside the spec's state. It has NO CONSTRUCTOR: every fault of the spec is
recorded in the state and the machine has a next state, the faulted one, in which every later step
changes nothing (R178, R180, R181; assumption log 1). So no meaning answers `.fault`. -/
inductive Fault
  deriving DecidableEq, Repr

/-- Why a step could have no meaning. -/
inductive Refusal where
  /-- Raised only by an arm of `exec` that has no meaning; safe. Every arm has its meaning, so nothing
  raises it. -/
  | notModelled (mnemonic : String)
  deriving DecidableEq, Repr

/-- The state after construction and after every reset, the table of R36: memory lists nothing, so it
reads as its reset contents (font and zeros); pc is the reset vector. `draws` 0 is the model's own
choice (assumption log 2). -/
def State.reset : State :=
  { mem := []
    v := Vector.replicate 16 0#8
    i := 0#16
    pc := BitVec.ofNat 16 loadAddr
    stack := []
    dt := 0#8
    st := 0#8
    fb := Vector.replicate 32 0#64
    key := Vector.replicate 16 false
    redraw := false
    waiting := false
    waitReg := 0
    fault := none
    draws := 0 }

end Sys2Proof.Machine
end

