-- ==== Sys2Proof/Machine/Ops.lean ====
section
/-! DEFINITION. The named operations over the state: memory (spec/20_memory.md), registers, stack
(spec/10_state.md), screen cells, and raising a fault (spec/60_exceptions.md). -/

namespace Sys2Proof.Machine

/-- The configuration that the machine's meanings run under: the spec's values (R6; assumption log 3). -/
def activeConfig : Config := Config.spec

/-! ## Memory -/

/-- FONT_BASE (R6, R59). -/
def fontBase : Nat := 0x050

/-- FONT_GLYPH_BYTES (R6). -/
def fontGlyphBytes : Nat := 5

/-- FONT, glyphs 0 to 7 (R60). -/
def fontLow : List Byte :=
  [0xF0, 0x90, 0x90, 0x90, 0xF0] ++ [0x20, 0x60, 0x20, 0x20, 0x70] ++
  [0xF0, 0x10, 0xF0, 0x80, 0xF0] ++ [0xF0, 0x10, 0xF0, 0x10, 0xF0] ++
  [0x90, 0x90, 0xF0, 0x10, 0x10] ++ [0xF0, 0x80, 0xF0, 0x10, 0xF0] ++
  [0xF0, 0x80, 0xF0, 0x90, 0xF0] ++ [0xF0, 0x10, 0x20, 0x40, 0x40]

/-- FONT, glyphs 8 to F (R60). -/
def fontHigh : List Byte :=
  [0xF0, 0x90, 0xF0, 0x90, 0xF0] ++ [0xF0, 0x90, 0xF0, 0x10, 0xF0] ++
  [0xF0, 0x90, 0xF0, 0x90, 0x90] ++ [0xE0, 0x90, 0xE0, 0x90, 0xE0] ++
  [0xF0, 0x80, 0x80, 0x80, 0xF0] ++ [0xE0, 0x90, 0x90, 0x90, 0xE0] ++
  [0xF0, 0x80, 0xF0, 0x80, 0xF0] ++ [0xF0, 0x80, 0xF0, 0x80, 0x80]

/-- FONT, the 80 bytes of R60. -/
def font : List Byte := fontLow ++ fontHigh

/-- The reset contents of memory (R36, R59, R195): the font at FONT_BASE, 0 elsewhere. It is what an
address that the memory list does not name reads as. -/
def resetByte (a : Nat) : Byte :=
  if a < fontBase then 0#8 else font.getD (a - fontBase) 0#8

/-- `mem[a]` (R50), with no bounds check: the entry of `a`, else its reset contents. -/
def Memory.read : Memory → Nat → Byte
  | [], a => resetByte a
  | (b, w) :: rest, a => if b = a then w else Memory.read rest a

/-- Takes `a` out of the list. -/
def Memory.erase : Memory → Nat → Memory
  | [], _ => []
  | (b, w) :: rest, a => if b = a then rest else (b, w) :: Memory.erase rest a

/-- Puts `(a, v)` in its place in the list, over an earlier entry of `a`. -/
def Memory.insert : Memory → Nat → Byte → Memory
  | [], a, v => [(a, v)]
  | (b, w) :: rest, a, v =>
    if a < b then (a, v) :: (b, w) :: rest
    else if a = b then (a, v) :: rest
    else (b, w) :: Memory.insert rest a v

/-- `mem[a] <- v` (R50), with no bounds check, keeping the canonical form: a byte equal to the reset
contents of its address is not listed. -/
def Memory.write (m : Memory) (a : Nat) (v : Byte) : Memory :=
  if v = resetByte a then m.erase a else m.insert a v

/-- The bytes at `a, a + 1, ..., a + n - 1`. -/
def Memory.readBytes (m : Memory) (a : Nat) : Nat → List Byte
  | 0 => []
  | n + 1 => m.read a :: Memory.readBytes m (a + 1) n

/-- Writes the bytes of a list to `a, a + 1, ...`: the addresses are distinct, so the order of the
writes does not matter. -/
def Memory.writeBytes (m : Memory) (a : Nat) : List Byte → Memory
  | [] => m
  | b :: bs => (Memory.writeBytes m (a + 1) bs).write a b

/-- The list is canonical from address `lo` on. -/
def Memory.canonicalFrom : Nat → Memory → Bool
  | _, [] => true
  | lo, (a, v) :: rest =>
    decide (lo ≤ a) && decide (a < memSize) && decide (v ≠ resetByte a) && Memory.canonicalFrom (a + 1) rest

/-- The canonical form: addresses strictly rising and inside the array of R50, no entry equal to the
reset contents of its address. -/
def Memory.wf (m : Memory) : Bool := Memory.canonicalFrom 0 m

/-- The bounds check of R53 and R54 for the `n` addresses `a .. a + n - 1`, computed on naturals: none
when all are inside memory, else the lowest one that is not. -/
def firstOutOfRange (a n : Nat) : Option Nat :=
  if n = 0 ∨ a + n ≤ memSize then none else some (max a memSize)

/-! ## Registers -/

/-- `V[x]` (R12, R20). -/
def State.readV (s : State) (x : Reg) : Byte := s.v[x]

/-- `V[x] <- b` (R12, R20). -/
def State.writeV (s : State) (x : Reg) (b : Byte) : State := { s with v := s.v.set x b }

/-- The register VF (R22). -/
def regVF : Reg := 15

/-- The register V0, which BNNN adds (R113). -/
def regV0 : Reg := 0

/-- The values of V0 to Vx, in order (R150). -/
def State.readVUpTo (s : State) (x : Reg) : List Byte := s.v.toList.take (x.val + 1)

/-- Writes the bytes of a list to registers `k, k + 1, ...`. -/
def writeRegsFrom (v : Vector Byte 16) (k : Nat) : List Byte → Vector Byte 16
  | [] => v
  | b :: bs => writeRegsFrom (v.setIfInBounds k b) (k + 1) bs

/-- The default advance `pc <- pc0 + 2` (R93). -/
def State.advance (s : State) : State := { s with pc := s.pc + 2#16 }

/-- A skip of R115, taken when `taken`: 2 more bytes than the default advance. -/
def State.advanceSkip (s : State) (taken : Bool) : State :=
  if taken then { s with pc := s.pc + 4#16 } else s.advance

/-- `pc <- target`, which replaces the default advance (R93, R98). -/
def State.jump (s : State) (target : Word) : State := { s with pc := target }

/-! ## The call stack -/

/-- `Push(v)` of R26 on the stack alone: none on overflow. -/
def pushStack (stack : List Word) (v : Word) : Option (List Word) :=
  if stackDepth ≤ stack.length then none else some (stack ++ [v])

/-- `Pop()` of R26 on the stack alone: the top (last) entry and what is left, none on underflow. -/
def popStack (stack : List Word) : Option (Word × List Word) :=
  match stack.getLast? with
  | none => none
  | some top => some (top, stack.dropLast)

/-! ## Screen cells and keys -/

/-- Row `py` of the framebuffer; there is no row above 31. -/
def Screen.row (fb : Screen) (py : Nat) : BitVec 64 := fb.toList.getD py 0#64

/-- `FB[px][py]` (R12, R32). -/
def Screen.cell (fb : Screen) (px py : Nat) : Bool := (fb.row py).getLsbD px

/-- `FB[px][py] <- not FB[px][py]` (R158). -/
def Screen.toggle (fb : Screen) (px py : Nat) : Screen :=
  fb.setIfInBounds py (fb.row py ^^^ BitVec.twoPow 64 px)

/-- The framebuffer with every cell off (R156). -/
def Screen.clear : Screen := Vector.replicate 32 0#64

/-- `KEY[k]` (R12, R33); no key above 15 exists. -/
def State.keyDown (s : State) (k : Nat) : Bool := s.key.toList.getD k false

/-! ## Taking a fault -/

/-- The code of a fault kind (R176). -/
def faultCode : FaultKind → Nat
  | .illegalInstruction => 1
  | .stackOverflow => 2
  | .stackUnderflow => 3
  | .memoryOutOfBounds => 4
  | .keyIndexOutOfRange => 5

/-- `raise F(info)` (R178) with the effect of R180: the record is written and nothing else changes.
The state given is the one at the START of the cycle, before the default advance, so its pc is pc0.
There is no return from a fault (R182): only `load` (Machine/Loader.lean) clears the record. -/
def State.raise (s : State) (kind : FaultKind) (opcode : Option Word) (info : Option Nat) : State :=
  { s with fault := some { kind := kind, code := faultCode kind, pc := s.pc, opcode := opcode, info := info } }

/-- Handling of `Illegal(op)` under a configuration (R190). -/
def illegalWord (c : Config) (op : Word) (s : State) : State :=
  match c.illegalPolicy with
  | .fault => s.raise .illegalInstruction (some op) (some op.toNat)
  | .nop => s.advance

/-- Runs `k` when all `n` addresses from `a` are inside memory, else raises MemoryOutOfBounds with the
lowest one that is not, and has no other effect (R53, R54). -/
def State.checked (s : State) (op : Word) (a n : Nat) (k : State) : State :=
  match firstOutOfRange a n with
  | none => k
  | some bad => s.raise .memoryOutOfBounds (some op) (some bad)

/-! ## Fetch -/

/-- What a fetch answers. -/
inductive Fetched where
  /-- The two bytes at pc and pc + 1, in that order. -/
  | bytes (bs : List Byte)
  /-- The lowest of the two addresses that is outside memory. -/
  | outOfRange (a : Nat)
  deriving DecidableEq, Repr

/-- `Fetch(pc)` (R55): the instruction's two bytes, or the lowest address outside memory. -/
def State.fetch (s : State) : Fetched :=
  match firstOutOfRange s.pc.toNat 2 with
  | none => .bytes (s.mem.readBytes s.pc.toNat 2)
  | some bad => .outOfRange bad

/-- The word at pc, `mem[pc] ++ mem[pc + 1]` (R55): what a fetch inside memory hands the decoder. -/
def fetchedWord (s : State) : Word := wordOfBytes (s.mem.read s.pc.toNat) (s.mem.read (s.pc.toNat + 1))

end Sys2Proof.Machine
end

