-- ==== Sys2Proof/Machine/Operands.lean ====
section
/-! DEFINITION. The operand forms: immediates (spec/30_encoding.md R73), the I-relative addresses
(spec/44_index_memory.md R146), the font index (R148), the shift source (spec/43_alu.md R133), sprite
coordinates (spec/45_display.md R158), decimal digits (R149), the random byte (R136). -/

namespace Sys2Proof.Machine

/-- `zext_16(NNN)` (R73). -/
def addrWord (nnn : Addr) : Word := nnn.setWidth 16

/-- The effective address `I + k` on unbounded naturals (R53, R146). -/
def effectiveAddr (s : State) (k : Nat) : Nat := s.i.toNat + k

/-- The target of BNNN: `zext_16(NNN) + V[0]` (R113). -/
def offsetTarget (nnn : Addr) (s : State) : Word := BitVec.ofNat 16 (nnn.toNat + (s.readV regV0).toNat)

/-- `FONT_BASE + FONT_GLYPH_BYTES * V[x][3:0]` (R148). -/
def glyphAddr (b : Byte) : Word := BitVec.ofNat 16 (fontBase + fontGlyphBytes * (b.toNat % 16))

/-- `(I + V[x]) mod 65536` (R147). -/
def indexSum (i : Word) (b : Byte) : Word := BitVec.ofNat 16 (i.toNat + b.toNat)

/-- The value a shift works on (R133, R135). -/
def shiftSource (c : Config) (x y : Reg) (s : State) : Byte := if c.shiftUsesVy then s.readV y else s.readV x

/-- What `I` is after FX55 and FX65 (R150, R151). -/
def indexAfterTransfer (c : Config) (x : Reg) (s : State) : Word :=
  if c.loadStoreIncrementsI then BitVec.ofNat 16 (s.i.toNat + x.val + 1) else s.i

/-- The three decimal digits of a byte, hundreds first (R149). -/
def decimalDigits (b : Byte) : List Byte :=
  [BitVec.ofNat 8 (b.toNat / 100), BitVec.ofNat 8 (b.toNat / 10 % 10), BitVec.ofNat 8 (b.toNat % 10)]

/-- The random byte of this execution of CXNN: the free value (R7, R136). -/
def randomByte (s : State) : Byte := Config.randomByte s.draws

/-- The cells (px, py) that one sprite row toggles, leftmost first: bit 7 is column offset 0 (R157),
columns wrap modulo 64 (R158). -/
def rowCells (x0 py : Nat) (row : Byte) : List (Nat × Nat) :=
  ([0, 1, 2, 3, 4, 5, 6, 7].filter fun c => row.getLsbD (7 - c)).map fun c => ((x0 + c) % screenWidth, py)

/-- The cells (px, py) that a sprite's 1 bits toggle, in the order of R158's loops, rows counted from
`r` and wrapping modulo 32. -/
def spriteCells (x0 y0 r : Nat) : List Byte → List (Nat × Nat)
  | [] => []
  | row :: rest => rowCells x0 ((y0 + r) % screenHeight) row ++ spriteCells x0 y0 (r + 1) rest

end Sys2Proof.Machine
end

