-- ==== Sys2Proof/Machine/Flags.lean ====
section
/-! DEFINITION. Arithmetic results and the flags that go to VF (spec/43_alu.md R131 to R137,
spec/45_display.md R158), and the order of the two writes (spec/10_state.md R22). Results are computed
on unbounded numbers and narrowed at the end (R137). -/

namespace Sys2Proof.Machine

/-- A flag as the byte VF receives. -/
def flagByte (b : Bool) : Byte := if b then 1#8 else 0#8

/-- `(a + b) mod 256` (R126, R131). -/
def sumByte (a b : Byte) : Byte := BitVec.ofNat 8 (a.toNat + b.toNat)

/-- Carry of `a + b` (R131). -/
def carryFlag (a b : Byte) : Byte := flagByte (decide (255 < a.toNat + b.toNat))

/-- `(a - b) mod 256`, the integer difference reduced (R132, R134). -/
def diffByte (a b : Byte) : Byte := BitVec.ofInt 8 ((a.toNat : Int) - (b.toNat : Int))

/-- NOT borrow of `a - b` (R132, R134). -/
def notBorrowFlag (a b : Byte) : Byte := flagByte (decide (b.toNat ≤ a.toNat))

/-- `s >> 1` (R133). -/
def halfByte (b : Byte) : Byte := BitVec.ofNat 8 (b.toNat / 2)

/-- `s[0]`, the bit that SHR shifts out (R133). -/
def lowBitFlag (b : Byte) : Byte := flagByte (b.getLsbD 0)

/-- `(s * 2) mod 256` (R135). -/
def doubleByte (b : Byte) : Byte := BitVec.ofNat 8 (b.toNat * 2)

/-- `s[7]`, the bit that SHL shifts out (R135). -/
def highBitFlag (b : Byte) : Byte := flagByte (b.getLsbD 7)

/-- The result to Vx, then the flag to VF as the last write, so that the flag stands when x = 15 (R22). -/
def State.writeResultThenFlag (s : State) (x : Reg) (result flag : Byte) : State :=
  (s.writeV x result).writeV regVF flag

/-- Toggles cells one after another and says whether one of them was on just before its toggle: the
loop body of R158. -/
def toggleCells : List (Nat × Nat) → Screen → Bool → Screen × Bool
  | [], fb, collide => (fb, collide)
  | (px, py) :: rest, fb, collide => toggleCells rest (fb.toggle px py) (collide || fb.cell px py)

end Sys2Proof.Machine
end

