-- ==== Sys2Proof/Machine/Cycle.lean ====
section
/-! DEFINITION. What a cycle does around the instruction it executes (spec/40_cycle.md): timer decay
R96, the blocked-on-key cycle R92, the end of a running cycle R94. Machine/Step.lean calls these. -/

namespace Sys2Proof.Machine

/-- One unit of decay toward zero (R96). -/
def decayTimer (t : Byte) : Byte := if t = 0#8 then 0#8 else t - 1#8

/-- `DecayTimers()` (R96). -/
def decayTimers (s : State) : State := { s with dt := decayTimer s.dt, st := decayTimer s.st }

/-- The lowest key number whose flag is set (R92, D12). -/
def lowestKeyDown (s : State) : Option Nat := [0, 1, 2, 3, 4, 5, 6, 7, 8, 9, 10, 11, 12, 13, 14, 15].find? s.keyDown

/-- The key scan of a blocked cycle (R92): a set key ends the wait. -/
def scanKeys (s : State) : State :=
  match lowestKeyDown s with
  | some k => { s.writeV s.waitReg (BitVec.ofNat 8 k) with waiting := false }
  | none => s

/-- `BlockedCycle()` (R92): the scan, then decay only; no fetch. -/
def blockedCycle (s : State) : State := decayTimers (scanKeys s)

/-- The end of a running cycle (R94): decay, unless the cycle raised a fault, which leaves the timers as
they were (R180). -/
def endCycle (t : State) : State := if t.fault.isSome then t else decayTimers t

/-- `endCycle` on the outcome of an instruction. -/
def finishCycle : Host.Outcome State Fault Refusal → Host.Outcome State Fault Refusal
  | .next t => .next (endCycle t)
  | .fault r => .fault r
  | .refused r => .refused r

/-- A cycle whose fetched word is `Illegal(op)` (R95, R190). -/
def illegalCycle (c : Config) (op : Word) (s : State) : State := endCycle (illegalWord c op s)

/-- A cycle whose fetch reached outside memory (R55, R179): no opcode is recorded. -/
def fetchFaultCycle (a : Nat) (s : State) : State := s.raise .memoryOutOfBounds none (some a)

end Sys2Proof.Machine
end

