-- ==== Sys2Proof/Machine/Alu.lean ====
section
/-! DEFINITION. Register loads and ALU: 6XNN, 7XNN, 8XY0 to 8XYE, CXNN (spec/43_alu.md). A meaning takes
the state at the start of the cycle, as in Machine/Control.lean; operands are read from it before any
write (R22). -/

namespace Sys2Proof.Machine

/-- `LD Vx, byte` (R125). -/
def execLdImm (x : Reg) (nn : Byte) (s : State) : Host.Outcome State Fault Refusal :=
  .next (s.advance.writeV x nn)

/-- `ADD Vx, byte` (R126): no flag. -/
def execAddImm (x : Reg) (nn : Byte) (s : State) : Host.Outcome State Fault Refusal :=
  .next (s.advance.writeV x (sumByte (s.readV x) nn))

/-- `LD Vx, Vy` (R127). -/
def execLdReg (x y : Reg) (s : State) : Host.Outcome State Fault Refusal :=
  .next (s.advance.writeV x (s.readV y))

/-- `OR Vx, Vy` (R128): no flag. -/
def execOrReg (x y : Reg) (s : State) : Host.Outcome State Fault Refusal :=
  .next (s.advance.writeV x (s.readV x ||| s.readV y))

/-- `AND Vx, Vy` (R129): no flag. -/
def execAndReg (x y : Reg) (s : State) : Host.Outcome State Fault Refusal :=
  .next (s.advance.writeV x (s.readV x &&& s.readV y))

/-- `XOR Vx, Vy` (R130): no flag. -/
def execXorReg (x y : Reg) (s : State) : Host.Outcome State Fault Refusal :=
  .next (s.advance.writeV x (s.readV x ^^^ s.readV y))

/-- `ADD Vx, Vy` (R131): VF is the carry. -/
def execAddReg (x y : Reg) (s : State) : Host.Outcome State Fault Refusal :=
  .next (s.advance.writeResultThenFlag x (sumByte (s.readV x) (s.readV y)) (carryFlag (s.readV x) (s.readV y)))

/-- `SUB Vx, Vy` (R132): VF is NOT borrow of Vx - Vy. -/
def execSub (x y : Reg) (s : State) : Host.Outcome State Fault Refusal :=
  .next (s.advance.writeResultThenFlag x (diffByte (s.readV x) (s.readV y)) (notBorrowFlag (s.readV x) (s.readV y)))

/-- `SHR Vx, Vy` (R133) under a configuration: VF is the bit shifted out. -/
def execShrUnder (c : Config) (x y : Reg) (s : State) : Host.Outcome State Fault Refusal :=
  .next (s.advance.writeResultThenFlag x (halfByte (shiftSource c x y s)) (lowBitFlag (shiftSource c x y s)))

/-- `SHR Vx, Vy` (R133). -/
def execShr (x y : Reg) (s : State) : Host.Outcome State Fault Refusal := execShrUnder activeConfig x y s

/-- `SUBN Vx, Vy` (R134): VF is NOT borrow of Vy - Vx. -/
def execSubn (x y : Reg) (s : State) : Host.Outcome State Fault Refusal :=
  .next (s.advance.writeResultThenFlag x (diffByte (s.readV y) (s.readV x)) (notBorrowFlag (s.readV y) (s.readV x)))

/-- `SHL Vx, Vy` (R135) under a configuration: VF is the bit shifted out. -/
def execShlUnder (c : Config) (x y : Reg) (s : State) : Host.Outcome State Fault Refusal :=
  .next (s.advance.writeResultThenFlag x (doubleByte (shiftSource c x y s)) (highBitFlag (shiftSource c x y s)))

/-- `SHL Vx, Vy` (R135). -/
def execShl (x y : Reg) (s : State) : Host.Outcome State Fault Refusal := execShlUnder activeConfig x y s

/-- `RND Vx, byte` (R136): consumes the next random byte, a free value (assumption log 2). -/
def execRnd (x : Reg) (nn : Byte) (s : State) : Host.Outcome State Fault Refusal :=
  .next { s.advance.writeV x (randomByte s &&& nn) with draws := s.draws + 1 }

end Sys2Proof.Machine
end

