-- ==== Sys2Proof/Machine/Control.lean ====
section
/-! DEFINITION. Control transfer: 00EE, 0NNN, 1NNN, 2NNN, BNNN (spec/41_control_flow.md). A meaning
takes the state at the START of the cycle (pc = pc0) and answers the state after Execute (spec/40_cycle.md
R94), the default advance included, timer decay not. -/

namespace Sys2Proof.Machine

/-- `RET` (R106): pc is the popped return address; StackUnderflow when the stack is empty. -/
def execRet (s : State) : Host.Outcome State Fault Refusal :=
  match popStack s.stack with
  | some (top, rest) => .next { s.jump top with stack := rest }
  | none => .next (s.raise .stackUnderflow (some (encode .ret)) none)

/-- `SYS addr` (R107) under a configuration: no machine code to call, handled as `Illegal(op)` (R190). -/
def execSysUnder (c : Config) (nnn : Addr) (s : State) : Host.Outcome State Fault Refusal :=
  .next (illegalWord c (encode (.sys nnn)) s)

/-- `SYS addr` (R107). -/
def execSys (nnn : Addr) (s : State) : Host.Outcome State Fault Refusal := execSysUnder activeConfig nnn s

/-- `JP addr` (R108). -/
def execJp (nnn : Addr) (s : State) : Host.Outcome State Fault Refusal := .next (s.jump (addrWord nnn))

/-- `CALL addr` (R109): pushes the advanced pc, pc0 + 2 (R24); StackOverflow when the stack is full. -/
def execCall (nnn : Addr) (s : State) : Host.Outcome State Fault Refusal :=
  match pushStack s.stack s.advance.pc with
  | some stack' => .next { s.jump (addrWord nnn) with stack := stack' }
  | none => .next (s.raise .stackOverflow (some (encode (.call nnn))) none)

/-- `JP V0, addr` (R113). -/
def execJpV0 (nnn : Addr) (s : State) : Host.Outcome State Fault Refusal := .next (s.jump (offsetTarget nnn s))

end Sys2Proof.Machine
end

