-- ==== Sys2Proof/Machine/Display.lean ====
section
/-! DEFINITION. Display: 00E0, DXYN (spec/45_display.md). A meaning takes the state at the start of the
cycle, as in Machine/Control.lean. -/

namespace Sys2Proof.Machine

/-- `CLS` (R156): the redraw flag is set whether or not a cell was on. -/
def execCls (s : State) : Host.Outcome State Fault Refusal :=
  .next { s.advance with fb := Screen.clear, redraw := true }

/-- The cells that `DRW Vx, Vy, n` toggles in this state (R157, R158). -/
def drawnCells (x y : Reg) (n : Nibble) (s : State) : List (Nat × Nat) :=
  spriteCells (s.readV x).toNat (s.readV y).toNat 0 (s.mem.readBytes (effectiveAddr s 0) n.toNat)

/-- `DRW Vx, Vy, nibble` (R158): coordinates and sprite are read first, VF receives the collision as the
last register write, the redraw flag is always set. -/
def execDrw (x y : Reg) (n : Nibble) (s : State) : Host.Outcome State Fault Refusal :=
  .next (s.checked (encode (.drw x y n)) (effectiveAddr s 0) n.toNat
    { s.advance.writeV regVF (flagByte (toggleCells (drawnCells x y n s) s.fb false).2) with
      fb := (toggleCells (drawnCells x y n s) s.fb false).1
      redraw := true })

end Sys2Proof.Machine
end

