-- ==== Sys2Proof/Machine/Index.lean ====
section
/-! DEFINITION. Index register and memory transfers: ANNN, FX1E, FX29, FX33, FX55, FX65
(spec/44_index_memory.md). A meaning takes the state at the start of the cycle, as in
Machine/Control.lean; every address is checked before any effect (spec/20_memory.md R54). -/

namespace Sys2Proof.Machine

/-- `LD I, addr` (R145). -/
def execLdI (nnn : Addr) (s : State) : Host.Outcome State Fault Refusal :=
  .next { s.advance with i := addrWord nnn }

/-- `ADD I, Vx` (R147): VF unchanged. -/
def execAddIVx (x : Reg) (s : State) : Host.Outcome State Fault Refusal :=
  .next { s.advance with i := indexSum s.i (s.readV x) }

/-- `LD F, Vx` (R148). -/
def execLdFVx (x : Reg) (s : State) : Host.Outcome State Fault Refusal :=
  .next { s.advance with i := glyphAddr (s.readV x) }

/-- `LD B, Vx` (R149). -/
def execLdBVx (x : Reg) (s : State) : Host.Outcome State Fault Refusal :=
  .next (s.checked (encode (.ldBVx x)) (effectiveAddr s 0) 3
    { s.advance with mem := s.mem.writeBytes (effectiveAddr s 0) (decimalDigits (s.readV x)) })

/-- `LD [I], Vx` (R150) under a configuration: stores V0 to Vx. -/
def execLdMemVxUnder (c : Config) (x : Reg) (s : State) : Host.Outcome State Fault Refusal :=
  .next (s.checked (encode (.ldMemVx x)) (effectiveAddr s 0) (x.val + 1)
    { s.advance with
      mem := s.mem.writeBytes (effectiveAddr s 0) (s.readVUpTo x)
      i := indexAfterTransfer c x s })

/-- `LD [I], Vx` (R150). -/
def execLdMemVx (x : Reg) (s : State) : Host.Outcome State Fault Refusal := execLdMemVxUnder activeConfig x s

/-- `LD Vx, [I]` (R151) under a configuration: loads V0 to Vx. -/
def execLdVxMemUnder (c : Config) (x : Reg) (s : State) : Host.Outcome State Fault Refusal :=
  .next (s.checked (encode (.ldVxMem x)) (effectiveAddr s 0) (x.val + 1)
    { s.advance with
      v := writeRegsFrom s.v 0 (s.mem.readBytes (effectiveAddr s 0) (x.val + 1))
      i := indexAfterTransfer c x s })

/-- `LD Vx, [I]` (R151). -/
def execLdVxMem (x : Reg) (s : State) : Host.Outcome State Fault Refusal := execLdVxMemUnder activeConfig x s

end Sys2Proof.Machine
end

