-- ==== Sys2Proof/Machine/Skip.lean ====
section
/-! DEFINITION. Conditional skips: 3XNN, 4XNN, 5XY0, 9XY0, EX9E, EXA1 (spec/42_skip.md). A meaning takes
the state at the start of the cycle, as in Machine/Control.lean. -/

namespace Sys2Proof.Machine

/-- A key skip: KeyIndexOutOfRange when the register names no key, else a skip when the key's flag is
`wanted` (R120, R121). -/
def skipOnKey (op : Word) (x : Reg) (wanted : Bool) (s : State) : State :=
  if 15 < (s.readV x).toNat then s.raise .keyIndexOutOfRange (some op) (some (s.readV x).toNat)
  else s.advanceSkip (s.keyDown (s.readV x).toNat == wanted)

/-- `SE Vx, byte` (R116). -/
def execSeImm (x : Reg) (nn : Byte) (s : State) : Host.Outcome State Fault Refusal :=
  .next (s.advanceSkip (s.readV x == nn))

/-- `SNE Vx, byte` (R117). -/
def execSneImm (x : Reg) (nn : Byte) (s : State) : Host.Outcome State Fault Refusal :=
  .next (s.advanceSkip (s.readV x != nn))

/-- `SE Vx, Vy` (R118). -/
def execSeReg (x y : Reg) (s : State) : Host.Outcome State Fault Refusal :=
  .next (s.advanceSkip (s.readV x == s.readV y))

/-- `SNE Vx, Vy` (R119). -/
def execSneReg (x y : Reg) (s : State) : Host.Outcome State Fault Refusal :=
  .next (s.advanceSkip (s.readV x != s.readV y))

/-- `SKP Vx` (R120). -/
def execSkp (x : Reg) (s : State) : Host.Outcome State Fault Refusal :=
  .next (skipOnKey (encode (.skp x)) x true s)

/-- `SKNP Vx` (R121). -/
def execSknp (x : Reg) (s : State) : Host.Outcome State Fault Refusal :=
  .next (skipOnKey (encode (.sknp x)) x false s)

end Sys2Proof.Machine
end

