-- ==== Sys2Proof/Machine/TimersKeys.lean ====
section
/-! DEFINITION. Timers and key wait: FX07, FX0A, FX15, FX18 (spec/46_timers_keys.md). A meaning takes the
state at the start of the cycle, as in Machine/Control.lean; the decay of the same cycle follows in
Machine/Cycle.lean. -/

namespace Sys2Proof.Machine

/-- `LD Vx, DT` (R165): the value before this cycle's decay. -/
def execLdVxDT (x : Reg) (s : State) : Host.Outcome State Fault Refusal := .next (s.advance.writeV x s.dt)

/-- `LD Vx, K` (R166): enters the wait; no key is examined in this cycle. -/
def execLdVxK (x : Reg) (s : State) : Host.Outcome State Fault Refusal :=
  .next { s.advance with waiting := true, waitReg := x }

/-- `LD DT, Vx` (R167). -/
def execLdDTVx (x : Reg) (s : State) : Host.Outcome State Fault Refusal := .next { s.advance with dt := s.readV x }

/-- `LD ST, Vx` (R168). -/
def execLdSTVx (x : Reg) (s : State) : Host.Outcome State Fault Refusal := .next { s.advance with st := s.readV x }

end Sys2Proof.Machine
end

