-- ==== Sys2Proof/Machine/Step.lean ====
section
/-! DEFINITION. `step()`: one cycle (spec/40_cycle.md R94), and the placing of a word where the next
cycle fetches it. -/

namespace Sys2Proof.Machine

/-- One running cycle: fetch, decode, execute, decay (R93 to R96). A fetch answers two bytes, so the
decoder never sees a truncated word here. -/
def runCycle (s : State) : Host.Outcome State Fault Refusal :=
  match s.fetch with
  | .outOfRange a => .next (fetchFaultCycle a s)
  | .bytes bs =>
    match decode bs with
    | .instr i => finishCycle (exec i s)
    | .illegal op => .next (illegalCycle activeConfig op s)
    | .truncated => .next s

/-- One cycle (R94): a faulted machine does nothing (R181), a blocked one scans the keys (R92), a running
one executes one instruction. -/
def step (s : State) : Host.Outcome State Fault Refusal :=
  if s.fault.isSome then .next s
  else if s.waiting then .next (blockedCycle s)
  else runCycle s

/-- The state in which the next step fetches and runs the table word `w`: the machine is running, pc
stays where it is if an instruction fits there (else it is LOAD_ADDR), and the word's two bytes stand at
pc (assumption log 6). -/
def State.withFetchWord (s : State) (nbits w : Nat) : State :=
  let pc := if s.pc.toNat + 2 ≤ memSize then s.pc else BitVec.ofNat 16 loadAddr
  { s with
    pc := pc
    mem := s.mem.writeBytes pc.toNat (bytesOfWord (tableWord nbits w))
    waiting := false
    fault := none }

end Sys2Proof.Machine
end

