-- ==== Sys2Proof/Machine/Loader.lean ====
section
/-! DEFINITION. Construction, reset and `load` (spec/70_reset_and_hazards.md), and the host's accessors
(spec/00_scope.md R8, R9, R10; the host's rights in spec/10_state.md R34). -/

namespace Sys2Proof.Machine

/-- What the host supplies to `load` (R203): the image's bytes, or that they could not be obtained. -/
inductive ImageSource where
  /-- "raw bytes, no header" (R198). -/
  | bytes (image : List Byte)
  /-- The source bytes cannot be obtained (R200). -/
  | readFailure
  deriving DecidableEq, Repr

/-- The errors of `load` (R199, R200): results of the operation, not faults of the run (R176). -/
inductive LoadError where
  | imageTooLarge
  | imageReadError
  deriving DecidableEq, Repr

/-- `Reset()` (R196): every field of the spec's state at its construction value. The model's own
`draws` goes on, since the random input is outside the state (assumption log 7). -/
def resetMachine (s : State) : State := { State.reset with draws := s.draws }

/-- `load(image)` (R203): the error, if any, and the state after; a failed load changes nothing (R201). -/
def load (source : ImageSource) (s : State) : Option LoadError × State :=
  match source with
  | .readFailure => (some .imageReadError, s)
  | .bytes image =>
    if maxImage < image.length then (some .imageTooLarge, s)
    else (none, { resetMachine s with mem := (resetMachine s).mem.writeBytes loadAddr image })

/-! ## Accessors -/

/-- Sets one key flag (R8, R9a). -/
def setKey (k : Reg) (down : Bool) (s : State) : State := { s with key := s.key.set k down }

/-- Sets all key flags (R9a). -/
def setKeys (keys : Vector Bool 16) (s : State) : State := { s with key := keys }

/-- Clears the redraw flag after rendering (R9b). -/
def clearRedraw (s : State) : State := { s with redraw := false }

/-- The framebuffer cell in column `px` and row `py` (R9c, R10, R32). -/
def readFramebuffer (s : State) (px : Fin 64) (py : Fin 32) : Bool := s.fb.cell px py

/-- The redraw flag (R9c, R10). -/
def readRedraw (s : State) : Bool := s.redraw

/-- The delay timer (R9c, R10). -/
def readDelayTimer (s : State) : Byte := s.dt

/-- The sound timer (R9c, R10). -/
def readSoundTimer (s : State) : Byte := s.st

/-- A key flag: the host reads what it may write (R34, row KEY, column host read). -/
def readKey (k : Reg) (s : State) : Bool := s.key[k]

/-- All key flags (R34). -/
def readKeys (s : State) : Vector Bool 16 := s.key

/-- The fault status (R9c, R10, R177). -/
def readFault (s : State) : Option FaultRecord := s.fault

end Sys2Proof.Machine
end

