-- ==== Sys2Proof/Machine/Driver.lean ====
section
/-! DEFINITION. The host agent: what it may do to the state between cycles (spec/00_scope.md R3, R8, R9),
and runs in which its actions and the core's cycles alternate (spec/40_cycle.md R91). -/

namespace Sys2Proof.Machine

/-- Every way in which the host changes the state or lets it change (R8, R9). -/
inductive HostAction where
  /-- `load(image)` (R203). -/
  | load (source : ImageSource)
  /-- Set or clear a key flag (R9a). -/
  | setKey (k : Reg) (down : Bool)
  /-- Set all key flags (R9a). -/
  | setKeys (keys : Vector Bool 16)
  /-- Clear the redraw flag (R9b). -/
  | clearRedraw
  /-- Call `step()` once (R8). -/
  | cycle
  deriving DecidableEq, Repr

/-- The effect of one host action. -/
def hostMove (a : HostAction) (s : State) : Host.Outcome State Fault Refusal :=
  match a with
  | .load source => .next (load source s).2
  | .setKey k down => .next (setKey k down s)
  | .setKeys keys => .next (setKeys keys s)
  | .clearRedraw => .next (clearRedraw s)
  | .cycle => step s

/-- A sequence of host actions, one after another (R3: each completes before the next begins). -/
def hostRun : List HostAction → State → Host.Outcome State Fault Refusal
  | [], s => .next s
  | a :: rest, s =>
    match hostMove a s with
    | .next t => hostRun rest t
    | .fault r => .fault r
    | .refused r => .refused r

end Sys2Proof.Machine
end

