-- ==== Sys2Proof/Safety.lean ====
section
/-! DEFINITION. What the claims are stated in: the modes of the machine, the invariant of its reachable
states, and what it means that a piece of state is unchanged. -/

namespace Sys2Proof.Machine

/-! ## Modes (spec/40_cycle.md R90) -/

/-- Running: neither faulted nor waiting. -/
def State.Running (s : State) : Prop := s.fault = none ∧ s.waiting = false

/-- Blocked on key. -/
def State.Blocked (s : State) : Prop := s.fault = none ∧ s.waiting = true

/-- Faulted. A safe run is one that never meets it. -/
def State.Faulted (s : State) : Prop := s.fault ≠ none

/-- A running state whose pc addresses the two bytes of an instruction: the next step executes `i`. -/
def State.Runs (s : State) (i : Instr) : Prop :=
  s.Running ∧ s.pc.toNat + 1 < memSize ∧ decode [s.mem.read s.pc.toNat, s.mem.read (s.pc.toNat + 1)] = .instr i

/-! ## The invariant -/

/-- A fault record as a cycle writes it: its code is its kind's (R176), its pc is where the machine
stopped (R178, R180), and only a fetch has no opcode (R176). -/
def FaultRecord.Valid (f : FaultRecord) (s : State) : Prop :=
  f.code = faultCode f.kind ∧ f.pc = s.pc ∧ (f.opcode = none → f.kind = .memoryOutOfBounds)

/-- What holds in every state that a run can reach: memory in canonical form, a stack within its depth
(R26) whose return addresses are at most MEM_SIZE (R25), pc at most 0x10FE (R25), a valid fault record. -/
structure State.Inv (s : State) : Prop where
  memory : s.mem.wf = true
  depth : s.stack.length ≤ stackDepth
  returns : ∀ r ∈ s.stack, r.toNat ≤ memSize
  pcBound : s.pc.toNat ≤ 0x10FE
  record : ∀ f, s.fault = some f → f.Valid s

/-! ## Unchanged pieces -/

/-- The pieces of the spec's state other than pc and the general registers (spec/10_state.md R34). -/
inductive Piece where
  | memory
  | index
  | stack
  | delay
  | sound
  | screen
  | redraw
  | keys
  | wait
  | fault
  deriving DecidableEq, Repr

/-- The piece is the same in both states; for memory, every byte reads as before. -/
def Piece.Kept : Piece → State → State → Prop
  | .memory, s, t => ∀ a, t.mem.read a = s.mem.read a
  | .index, s, t => t.i = s.i
  | .stack, s, t => t.stack = s.stack
  | .delay, s, t => t.dt = s.dt
  | .sound, s, t => t.st = s.st
  | .screen, s, t => t.fb = s.fb
  | .redraw, s, t => t.redraw = s.redraw
  | .keys, s, t => t.key = s.key
  | .wait, s, t => t.waiting = s.waiting ∧ t.waitReg = s.waitReg
  | .fault, s, t => t.fault = s.fault

/-- Every piece outside the list is unchanged. -/
def KeepsBut (changed : List Piece) (s t : State) : Prop := ∀ p, p ∉ changed → p.Kept s t

/-- Every general register outside the list is unchanged. -/
def KeepsRegsBut (changed : List Reg) (s t : State) : Prop := ∀ r, r ∉ changed → t.readV r = s.readV r

/-- Every byte of memory outside `a .. a + n - 1` reads as before. -/
def KeepsBytesBut (a n : Nat) (s t : State) : Prop := ∀ b, ¬ (a ≤ b ∧ b < a + n) → t.mem.read b = s.mem.read b

/-- The state in which `kind` has been raised by the word `op`, and nothing else has changed (R178,
R180). -/
def Raised (kind : FaultKind) (op : Option Word) (info : Option Nat) (s t : State) : Prop :=
  t = { s with fault := some { kind := kind, code := faultCode kind, pc := s.pc, opcode := op, info := info } }

/-- The one kind of fault that executing an instruction can raise, by R179; none where it cannot raise
any. -/
def faultKindOf : Instr → Option FaultKind
  | .sys _ => some .illegalInstruction
  | .call _ => some .stackOverflow
  | .ret => some .stackUnderflow
  | .skp _ => some .keyIndexOutOfRange
  | .sknp _ => some .keyIndexOutOfRange
  | .drw _ _ _ => some .memoryOutOfBounds
  | .ldBVx _ => some .memoryOutOfBounds
  | .ldMemVx _ => some .memoryOutOfBounds
  | .ldVxMem _ => some .memoryOutOfBounds
  | .cls => none
  | .jp _ => none
  | .seImm _ _ => none
  | .sneImm _ _ => none
  | .seReg _ _ => none
  | .ldImm _ _ => none
  | .addImm _ _ => none
  | .ldReg _ _ => none
  | .orReg _ _ => none
  | .andReg _ _ => none
  | .xorReg _ _ => none
  | .addReg _ _ => none
  | .sub _ _ => none
  | .shr _ _ => none
  | .subn _ _ => none
  | .shl _ _ => none
  | .sneReg _ _ => none
  | .ldI _ => none
  | .jpV0 _ => none
  | .rnd _ _ => none
  | .ldVxDT _ => none
  | .ldVxK _ => none
  | .ldDTVx _ => none
  | .ldSTVx _ => none
  | .addIVx _ => none
  | .ldFVx _ => none

/-- The addresses that an instruction accesses beside its fetch are the `accessCount` ones from `I`
(spec/20_memory.md R52). -/
def accessCount : Instr → Nat
  | .drw _ _ n => n.toNat
  | .ldBVx _ => 3
  | .ldMemVx x => x.val + 1
  | .ldVxMem x => x.val + 1
  | .cls => 0
  | .ret => 0
  | .sys _ => 0
  | .jp _ => 0
  | .call _ => 0
  | .seImm _ _ => 0
  | .sneImm _ _ => 0
  | .seReg _ _ => 0
  | .ldImm _ _ => 0
  | .addImm _ _ => 0
  | .ldReg _ _ => 0
  | .orReg _ _ => 0
  | .andReg _ _ => 0
  | .xorReg _ _ => 0
  | .addReg _ _ => 0
  | .sub _ _ => 0
  | .shr _ _ => 0
  | .subn _ _ => 0
  | .shl _ _ => 0
  | .sneReg _ _ => 0
  | .ldI _ => 0
  | .jpV0 _ => 0
  | .rnd _ _ => 0
  | .skp _ => 0
  | .sknp _ => 0
  | .ldVxDT _ => 0
  | .ldVxK _ => 0
  | .ldDTVx _ => 0
  | .ldSTVx _ => 0
  | .addIVx _ => 0
  | .ldFVx _ => 0

/-! ## Running several instructions or actions -/

/-- Executes instructions one after another, each from the state the one before left. -/
def execAll : List Instr → State → Host.Outcome State Fault Refusal
  | [], s => .next s
  | i :: rest, s =>
    match exec i s with
    | .next t => execAll rest t
    | .fault r => .fault r
    | .refused r => .refused r

/-- The action is a `load`. -/
def HostAction.isLoad : HostAction → Bool
  | .load _ => true
  | .setKey _ _ => false
  | .setKeys _ => false
  | .clearRedraw => false
  | .cycle => false

end Sys2Proof.Machine
end

