-- ==== Sys2Proof/Certificates/Slice0/Obligations.lean ====
section
/-! DEFINITION. The statements for the provers. Each docstring says which rule of spec/ it formalises; a
statement that rests on a decision of the spec (D<n>) or of ours (log <n>) says so. -/

open Sys2Proof Sys2Proof.Machine

/-! ## Encoding -/

/-- Decoding the bytes of an instruction's word gives the instruction back, for every operand value
(30_encoding.md sections 1 and 2). -/
def Obligations.DecodeOfEncodeIsTheInstruction : Prop :=
  ∀ i : Instr, i.wellFormed = true → decode (bytesOfWord (encode i)) = .instr i

/-- A word that decodes to an instruction is that instruction's word, and the instruction is well formed:
no word belongs to two rows of the table. -/
def Obligations.EncodeOfDecodeIsTheWord : Prop :=
  ∀ (op : Word) (i : Instr), decodeWord op = .instr i → encode i = op ∧ i.wellFormed = true

/-- The complete illegal space, SYS included (30_encoding.md section 3, decisions D7 and D8). -/
def Obligations.IllegalSpaceIsExact : Prop :=
  ∀ op : Word,
    (decodeWord op = .illegal op ∨ ∃ nnn, decodeWord op = .instr (.sys nnn)) ↔
      (op.toNat / 4096 = 0 ∧ op.toNat ≠ 0x00E0 ∧ op.toNat ≠ 0x00EE) ∨
      ((op.toNat / 4096 = 5 ∨ op.toNat / 4096 = 9) ∧ op.toNat % 16 ≠ 0) ∨
      (op.toNat / 4096 = 8 ∧ op.toNat % 16 ∈ [0x8, 0x9, 0xA, 0xB, 0xC, 0xD, 0xF]) ∨
      (op.toNat / 4096 = 0xE ∧ op.toNat % 256 ∉ [0x9E, 0xA1]) ∨
      (op.toNat / 4096 = 0xF ∧ op.toNat % 256 ∉ [0x07, 0x0A, 0x15, 0x18, 0x1E, 0x29, 0x33, 0x55, 0x65])

/-- Words of 95_test_vectors.md and of the rules' examples, as bytes in memory order, decode to the
instructions they stand for. -/
def Obligations.WrittenOutWordsDecode : Prop :=
  decode [0x12#8, 0x04#8] = .instr (.jp 0x204#12) ∧
  decode [0x33#8, 0x42#8] = .instr (.seImm 3 0x42#8) ∧
  decode [0x81#8, 0x25#8] = .instr (.sub 1 2) ∧
  decode [0xD0#8, 0x15#8] = .instr (.drw 0 1 5#4) ∧
  decode [0xFA#8, 0x33#8] = .instr (.ldBVx 0xA) ∧
  decode [0xE5#8, 0xA2#8] = .illegal 0xE5A2#16

/-- A table word placed by `withFetchWord` is what the next step executes (log 6). -/
def Obligations.PlacedWordIsExecuted : Prop :=
  ∀ (s : State) (w : Nat) (i : Instr), s.mem.wf = true → decodeTableWord 16 w = some i →
    (s.withFetchWord 16 w).Runs i ∧
    step (s.withFetchWord 16 w) = finishCycle (exec i (s.withFetchWord 16 w))

/-! ## The cycle -/

/-- A running state whose bytes at pc decode to an instruction: the step is that instruction's meaning
(the default advance is in it), then the decay of both timers; or only the meaning where it raised a
fault (40_cycle.md, the complete cycle; no decay in a faulting cycle is decision D10). -/
def Obligations.StepRunsTheDecodedInstruction : Prop :=
  ∀ (s t : State) (i : Instr), s.Runs i → exec i s = .next t →
    (t.fault = none →
      step s = .next { t with dt := BitVec.ofNat 8 (t.dt.toNat - 1), st := BitVec.ofNat 8 (t.st.toNat - 1) }) ∧
    (t.fault ≠ none → step s = .next t)

/-- R55: a fetch is a big-endian pair; where one of its two addresses is outside memory the step raises
MemoryOutOfBounds with the lowest of them that is. -/
def Obligations.FetchIsABoundedBigEndianPair : Prop :=
  ∀ s : State,
    (s.pc.toNat + 1 < memSize →
      s.fetch = .bytes [s.mem.read s.pc.toNat, s.mem.read (s.pc.toNat + 1)] ∧
      (fetchedWord s).toNat = (s.mem.read s.pc.toNat).toNat * 256 + (s.mem.read (s.pc.toNat + 1)).toNat) ∧
    (s.Running → memSize ≤ s.pc.toNat + 1 →
      ∃ t, step s = .next t ∧
        Raised .memoryOutOfBounds none (some (if memSize ≤ s.pc.toNat then s.pc.toNat else s.pc.toNat + 1)) s t)

/-- A fetched word of the illegal space raises IllegalInstruction and changes nothing else; SYS does so as
an instruction, under the policy Fault; under the policy Nop either only advances pc (and the cycle decays
the timers). Decisions D6 and D7; the record's info is log 4. -/
def Obligations.IllegalWordsFollowThePolicy : Prop :=
  (∀ (s : State) (op : Word), s.Running → s.pc.toNat + 1 < memSize →
    decode [s.mem.read s.pc.toNat, s.mem.read (s.pc.toNat + 1)] = .illegal op →
    op = fetchedWord s ∧
    ∃ t, step s = .next t ∧ Raised .illegalInstruction (some op) (some op.toNat) s t) ∧
  (∀ (nnn : Addr) (s : State), ∃ t, exec (.sys nnn) s = .next t ∧
    Raised .illegalInstruction (some (encode (.sys nnn))) (some (encode (.sys nnn)).toNat) s t) ∧
  (∀ (c : Config) (nnn : Addr) (op : Word) (s : State), c.illegalPolicy = .nop → s.fault = none →
    execSysUnder c nnn s = .next { s with pc := s.pc + 2#16 } ∧
    illegalCycle c op s =
      { s with
        pc := s.pc + 2#16
        dt := BitVec.ofNat 8 (s.dt.toNat - 1)
        st := BitVec.ofNat 8 (s.st.toNat - 1) })

/-- A blocked cycle: with a key set, the lowest set key's number goes to the waiting register and the wait
ends; with none, only the timers decay. No fetch, pc unchanged, key flags unchanged (40_cycle.md section on
the blocked cycle; the lowest key is decision D12). -/
def Obligations.BlockedCycleScansTheKeys : Prop :=
  ∀ s : State, s.Blocked →
    (∀ k : Reg, s.key[k] = true → (∀ j : Reg, j < k → s.key[j] = false) →
      ∃ t, step s = .next t ∧ (t.readV s.waitReg).toNat = k.val ∧ t.waiting = false ∧ t.pc = s.pc ∧
        t.dt.toNat = s.dt.toNat - 1 ∧ t.st.toNat = s.st.toNat - 1 ∧
        KeepsRegsBut [s.waitReg] s t ∧ KeepsBut [.wait, .delay, .sound] s t) ∧
    ((∀ k : Reg, s.key[k] = false) →
      step s = .next { s with dt := BitVec.ofNat 8 (s.dt.toNat - 1), st := BitVec.ofNat 8 (s.st.toNat - 1) })

/-- The cycle is total: a step answers a next state from every state, never a stop of the model
(40_cycle.md, the complete cycle; log 1). -/
def Obligations.StepAnswersFromEveryState : Prop :=
  ∀ s : State, ∃ t, step s = .next t

/-- Timers lose one unit, never below 0, in every cycle that starts and ends without a fault, running or
blocked; a timer that the cycle's instruction sets loses it from the value set (40_cycle.md, timer decay). -/
def Obligations.TimersDecayInEveryFaultFreeCycle : Prop :=
  ∀ s t : State, s.fault = none → step s = .next t → t.fault = none →
    (∀ x, s.Runs (.ldDTVx x) → t.dt.toNat = (s.readV x).toNat - 1) ∧
    ((∀ x, ¬ s.Runs (.ldDTVx x)) → t.dt.toNat = s.dt.toNat - 1) ∧
    (∀ x, s.Runs (.ldSTVx x) → t.st.toNat = (s.readV x).toNat - 1) ∧
    ((∀ x, ¬ s.Runs (.ldSTVx x)) → t.st.toNat = s.st.toNat - 1)

/-! ## Faults -/

/-- Faults are precise: a step that raises one changes nothing but the record, which names the kind's code,
the instruction's address and, unless the fetch failed, its word (60_exceptions.md section 1, decision D10). -/
def Obligations.FaultsArePrecise : Prop :=
  ∀ (s t : State) (f : FaultRecord), s.Running → step s = .next t → t.fault = some f →
    t = { s with fault := some f } ∧ f.pc = s.pc ∧ f.code = faultCode f.kind ∧
    (s.pc.toNat + 1 < memSize → f.opcode = some (fetchedWord s)) ∧
    (memSize ≤ s.pc.toNat + 1 → f.opcode = none)

/-- An instruction raises at most the one kind of fault that the spec gives it (60_exceptions.md section 1,
decisions D9, D11, D32). -/
def Obligations.EachInstructionRaisesOnlyItsOwnFault : Prop :=
  ∀ (i : Instr) (s t : State) (f : FaultRecord), s.fault = none → exec i s = .next t → t.fault = some f →
    faultKindOf i = some f.kind

/-- A faulted machine is quiescent, and only a load ends that: along any sequence of cycles and host
actions other than load the record, pc and everything but the key and redraw flags stay (60_exceptions.md
section 1, decision D10). -/
def Obligations.OnlyLoadLeavesAFault : Prop :=
  ∀ (actions : List HostAction) (s : State), s.Faulted → (∀ a ∈ actions, a.isLoad = false) →
    ∃ t, hostRun actions s = .next t ∧ t.fault = s.fault ∧ t.pc = s.pc ∧
      KeepsRegsBut [] s t ∧ KeepsBut [.keys, .redraw] s t

/-- An instruction whose access set leaves memory raises MemoryOutOfBounds with the lowest bad address and
has no other effect (20_memory.md section 2, decision D9). -/
def Obligations.MemoryAccessIsCheckedBeforeAnyEffect : Prop :=
  ∀ (i : Instr) (s : State), accessCount i ≠ 0 → memSize < s.i.toNat + accessCount i →
    ∃ t, exec i s = .next t ∧
      Raised .memoryOutOfBounds (some (encode i)) (some (max s.i.toNat memSize)) s t

/-! ## The invariant -/

/-- Every step keeps the invariant: canonical memory, a stack within its depth with return addresses at
most MEM_SIZE, pc at most 0x10FE, a valid fault record (10_state.md sections 2 and 3). -/
def Obligations.StepKeepsTheInvariant : Prop :=
  ∀ s t : State, s.Inv → step s = .next t → t.Inv

/-- The state after reset meets the invariant `State.Inv`. -/
def Obligations.ResetMeetsTheInvariant : Prop :=
  State.reset.Inv

/-- Every sequence of host actions, loads and cycles among them, keeps the invariant. -/
def Obligations.HostActionsKeepTheInvariant : Prop :=
  ∀ (actions : List HostAction) (s : State), s.Inv → ∃ t, hostRun actions s = .next t ∧ t.Inv

/-! ## Rules of the whole machine -/

/-- R155: only the display instructions write the framebuffer or set the redraw flag; 00E0 is encoded in
family 0. -/
def Obligations.OnlyDisplayInstructionsWriteTheScreen : Prop :=
  (∀ s t : State, step s = .next t → (t.fb ≠ s.fb ∨ t.redraw ≠ s.redraw) →
    s.Runs .cls ∨ ∃ x y n, s.Runs (.drw x y n)) ∧
  fieldFamily 0x00E0#16 = 0 ∧ decodeWord 0x00E0#16 = .instr .cls

/-- The core never writes a key flag (10_state.md section 5, decision D12, conflict C5). -/
def Obligations.CoreNeverWritesAKeyFlag : Prop :=
  ∀ s t : State, step s = .next t → t.key = s.key

/-- Only CALL and RET change the stack (41_control_flow.md). -/
def Obligations.OnlyCallAndReturnChangeTheStack : Prop :=
  ∀ s t : State, step s = .next t → t.stack ≠ s.stack → s.Runs .ret ∨ ∃ nnn, s.Runs (.call nnn)

/-- A byte of memory changes only by FX33 or FX55, and only inside their access sets (20_memory.md
section 1). -/
def Obligations.OnlyStoresChangeMemory : Prop :=
  ∀ (s t : State) (a : Nat), s.mem.wf = true → step s = .next t → t.mem.read a ≠ s.mem.read a →
    (∃ x, s.Runs (.ldBVx x) ∧ s.i.toNat ≤ a ∧ a < s.i.toNat + 3) ∨
    (∃ x : Reg, s.Runs (.ldMemVx x) ∧ s.i.toNat ≤ a ∧ a < s.i.toNat + x.val + 1)

/-- No instruction but EX9E and EXA1 depends on the key flags (10_state.md section 5). The two executions of
CXNN that are compared draw the same byte, since the key flags leave `draws` as it is (log 2). -/
def Obligations.OnlyKeySkipsReadTheKeys : Prop :=
  ∀ (i : Instr) (s t : State) (keys : Vector Bool 16), (∀ x, i ≠ .skp x ∧ i ≠ .sknp x) → exec i s = .next t →
    exec i { s with key := keys } = .next { t with key := keys }

/-- No instruction reads the sound timer or the redraw flag: what else a meaning leaves does not depend on
them (10_state.md sections 4 and 5). The two executions of CXNN that are compared draw the same byte, since
they start from the same `draws` (log 2). -/
def Obligations.NoInstructionReadsSoundOrRedraw : Prop :=
  ∀ (i : Instr) (s t : State) (b : Byte) (r : Bool), exec i s = .next t →
    ∃ u, exec i { s with st := b, redraw := r } = .next u ∧ u = { t with st := u.st, redraw := u.redraw }

/-- What the host may do between cycles beside load: key flags and the redraw flag, nothing else
(00_scope.md section 5, decision D28). -/
def Obligations.HostWritesOnlyKeysAndRedraw : Prop :=
  ∀ (s : State) (k j : Reg) (down : Bool) (keys : Vector Bool 16),
    (setKey k down s).key[j] = (if k = j then down else s.key[j]) ∧
    KeepsBut [.keys] s (setKey k down s) ∧ KeepsRegsBut [] s (setKey k down s) ∧ (setKey k down s).pc = s.pc ∧
    (setKeys keys s).key = keys ∧
    KeepsBut [.keys] s (setKeys keys s) ∧ KeepsRegsBut [] s (setKeys keys s) ∧ (setKeys keys s).pc = s.pc ∧
    (clearRedraw s).redraw = false ∧
    KeepsBut [.redraw] s (clearRedraw s) ∧ KeepsRegsBut [] s (clearRedraw s) ∧ (clearRedraw s).pc = s.pc

/-! ## Control transfer -/

/-- R108, its word included. -/
def Obligations.JumpReplacesPc : Prop :=
  ∀ (nnn : Addr) (s : State), (encode (.jp nnn)).toNat = 0x1000 + nnn.toNat ∧ ∃ t, exec (.jp nnn) s = .next t ∧ t.pc.toNat = nnn.toNat ∧
    KeepsRegsBut [] s t ∧ KeepsBut [] s t

/-- BNNN adds V0 to the target, with no wrap (41_control_flow.md, decision D17). -/
def Obligations.JumpWithOffsetAddsV0 : Prop :=
  ∀ (nnn : Addr) (s : State), ∃ t, exec (.jpV0 nnn) s = .next t ∧
    t.pc.toNat = nnn.toNat + (s.readV 0).toNat ∧ KeepsRegsBut [] s t ∧ KeepsBut [] s t

/-- CALL, its word included (41_control_flow.md): it pushes the advanced pc and jumps; on a full stack it
raises StackOverflow and changes nothing else. That the record's info is none is log 4. -/
def Obligations.CallPushesTheReturnAddress : Prop :=
  ∀ (nnn : Addr) (s : State), (encode (.call nnn)).toNat = 0x2000 + nnn.toNat ∧
    (s.stack.length < 16 →
      ∃ t, exec (.call nnn) s = .next t ∧ t.stack = s.stack ++ [s.pc + 2#16] ∧ t.pc.toNat = nnn.toNat ∧
        KeepsRegsBut [] s t ∧ KeepsBut [.stack] s t) ∧
    (s.stack.length = 16 →
      ∃ t, exec (.call nnn) s = .next t ∧ Raised .stackOverflow (some (encode (.call nnn))) none s t)

/-- RET, its word included (41_control_flow.md): it pops the last entry into pc; on an empty stack it raises
StackUnderflow and changes nothing else. That the record's info is none is log 4. -/
def Obligations.ReturnPopsIntoPc : Prop :=
  ∀ s : State, encode .ret = 0x00EE#16 ∧
    (∀ (rest : List Word) (top : Word), s.stack = rest ++ [top] →
      ∃ t, exec .ret s = .next t ∧ t.pc = top ∧ t.stack = rest ∧ KeepsRegsBut [] s t ∧ KeepsBut [.stack] s t) ∧
    (s.stack = [] → ∃ t, exec .ret s = .next t ∧ Raised .stackUnderflow (some 0x00EE#16) none s t)

/-- CALL then RET leaves everything as it was but pc, which is after the CALL (41_control_flow.md, the
call and return law). -/
def Obligations.CallThenReturnComesBack : Prop :=
  ∀ (nnn : Addr) (s : State), s.stack.length < 16 →
    execAll [.call nnn, .ret] s = .next { s with pc := s.pc + 2#16 }

/-- Nested CALLs from an empty stack: up to 16 succeed, the 17th raises StackOverflow with 16 entries left
(41_control_flow.md, CALL). -/
def Obligations.SeventeenthNestedCallOverflows : Prop :=
  ∀ (targets : List Addr) (s : State), s.stack = [] → s.fault = none →
    (targets.length ≤ 16 →
      ∃ t, execAll (targets.map .call) s = .next t ∧ t.fault = none ∧ t.stack.length = targets.length) ∧
    (targets.length = 17 →
      ∃ t f, execAll (targets.map .call) s = .next t ∧ t.fault = some f ∧ f.kind = .stackOverflow ∧
        t.stack.length = 16)

/-! ## Skips -/

/-- R116 to R119, their words included: the skip moves pc by 2 more bytes exactly when its comparison holds,
and the instruction changes nothing else. -/
def Obligations.SkipsCompareRegisters : Prop :=
  ∀ (x y : Reg) (nn : Byte) (s : State),
    (encode (.seImm x nn)).toNat = 0x3000 + x.val * 256 + nn.toNat ∧
    (encode (.sneImm x nn)).toNat = 0x4000 + x.val * 256 + nn.toNat ∧
    (encode (.seReg x y)).toNat = 0x5000 + x.val * 256 + y.val * 16 ∧
    (encode (.sneReg x y)).toNat = 0x9000 + x.val * 256 + y.val * 16 ∧
    exec (.seImm x nn) s = .next { s with pc := if s.readV x = nn then s.pc + 2#16 + 2#16 else s.pc + 2#16 } ∧
    exec (.sneImm x nn) s = .next { s with pc := if s.readV x = nn then s.pc + 2#16 else s.pc + 2#16 + 2#16 } ∧
    exec (.seReg x y) s = .next { s with pc := if s.readV x = s.readV y then s.pc + 2#16 + 2#16 else s.pc + 2#16 } ∧
    exec (.sneReg x y) s = .next { s with pc := if s.readV x = s.readV y then s.pc + 2#16 else s.pc + 2#16 + 2#16 }

/-- EX9E and EXA1 skip on the flag of the key that Vx names, and raise KeyIndexOutOfRange when Vx names
none (42_skip.md, decision D11). -/
def Obligations.KeySkipsReadTheNamedKey : Prop :=
  ∀ (x : Reg) (s : State),
    (∀ k : Reg, (s.readV x).toNat = k.val →
      exec (.skp x) s = .next { s with pc := if s.key[k] then s.pc + 2#16 + 2#16 else s.pc + 2#16 } ∧
      exec (.sknp x) s = .next { s with pc := if s.key[k] then s.pc + 2#16 else s.pc + 2#16 + 2#16 }) ∧
    (15 < (s.readV x).toNat →
      ∃ t u, exec (.skp x) s = .next t ∧ exec (.sknp x) s = .next u ∧
        Raised .keyIndexOutOfRange (some (encode (.skp x))) (some (s.readV x).toNat) s t ∧
        Raised .keyIndexOutOfRange (some (encode (.sknp x))) (some (s.readV x).toNat) s u)

/-! ## Loads and ALU -/

/-- R125 to R127, their words included: immediate load, immediate add modulo 256 with no flag, register
copy. -/
def Obligations.LoadsAndImmediateAdd : Prop :=
  ∀ (x y : Reg) (nn : Byte) (s : State),
    (encode (.ldImm x nn)).toNat = 0x6000 + x.val * 256 + nn.toNat ∧
    (encode (.addImm x nn)).toNat = 0x7000 + x.val * 256 + nn.toNat ∧
    (encode (.ldReg x y)).toNat = 0x8000 + x.val * 256 + y.val * 16 ∧
    (∃ t, exec (.ldImm x nn) s = .next t ∧ t.readV x = nn ∧ t.pc = s.pc + 2#16 ∧
      KeepsRegsBut [x] s t ∧ KeepsBut [] s t) ∧
    (∃ t, exec (.addImm x nn) s = .next t ∧ (t.readV x).toNat = ((s.readV x).toNat + nn.toNat) % 256 ∧
      t.pc = s.pc + 2#16 ∧ KeepsRegsBut [x] s t ∧ KeepsBut [] s t) ∧
    (∃ t, exec (.ldReg x y) s = .next t ∧ t.readV x = s.readV y ∧ t.pc = s.pc + 2#16 ∧
      KeepsRegsBut [x] s t ∧ KeepsBut [] s t)

/-- OR, AND and XOR work bit by bit and leave VF as it was unless it is the destination (43_alu.md,
decision D15). -/
def Obligations.LogicIsBitwiseAndSetsNoFlag : Prop :=
  ∀ (x y : Reg) (s : State),
    (∃ t, exec (.orReg x y) s = .next t ∧
      (∀ b < 8, (t.readV x).getLsbD b = ((s.readV x).getLsbD b || (s.readV y).getLsbD b)) ∧
      t.pc = s.pc + 2#16 ∧ KeepsRegsBut [x] s t ∧ KeepsBut [] s t) ∧
    (∃ t, exec (.andReg x y) s = .next t ∧
      (∀ b < 8, (t.readV x).getLsbD b = ((s.readV x).getLsbD b && (s.readV y).getLsbD b)) ∧
      t.pc = s.pc + 2#16 ∧ KeepsRegsBut [x] s t ∧ KeepsBut [] s t) ∧
    (∃ t, exec (.xorReg x y) s = .next t ∧
      (∀ b < 8, (t.readV x).getLsbD b = ((s.readV x).getLsbD b ^^ (s.readV y).getLsbD b)) ∧
      t.pc = s.pc + 2#16 ∧ KeepsRegsBut [x] s t ∧ KeepsBut [] s t)

/-- R131, its word included: the sum modulo 256, VF the carry, VF last. -/
def Obligations.AddSetsVfToTheCarry : Prop :=
  ∀ (x y : Reg) (s : State), (encode (.addReg x y)).toNat = 0x8004 + x.val * 256 + y.val * 16 ∧ ∃ t, exec (.addReg x y) s = .next t ∧
    (t.readV 15).toNat = (if 255 < (s.readV x).toNat + (s.readV y).toNat then 1 else 0) ∧
    (x ≠ 15 → (t.readV x).toNat = ((s.readV x).toNat + (s.readV y).toNat) % 256) ∧
    t.pc = s.pc + 2#16 ∧ KeepsRegsBut [x, 15] s t ∧ KeepsBut [] s t

/-- R132, its word included: the difference modulo 256, VF NOT borrow, VF last. -/
def Obligations.SubSetsVfToNotBorrow : Prop :=
  ∀ (x y : Reg) (s : State), (encode (.sub x y)).toNat = 0x8005 + x.val * 256 + y.val * 16 ∧ ∃ t, exec (.sub x y) s = .next t ∧
    (t.readV 15).toNat = (if (s.readV y).toNat ≤ (s.readV x).toNat then 1 else 0) ∧
    (x ≠ 15 → ((t.readV x).toNat : Int) = (((s.readV x).toNat : Int) - (s.readV y).toNat) % 256) ∧
    t.pc = s.pc + 2#16 ∧ KeepsRegsBut [x, 15] s t ∧ KeepsBut [] s t

/-- SUBN is the mirror image: Vy - Vx (43_alu.md, decision D16). -/
def Obligations.SubnSubtractsTheOtherWay : Prop :=
  ∀ (x y : Reg) (s : State), ∃ t, exec (.subn x y) s = .next t ∧
    (t.readV 15).toNat = (if (s.readV x).toNat ≤ (s.readV y).toNat then 1 else 0) ∧
    (x ≠ 15 → ((t.readV x).toNat : Int) = (((s.readV y).toNat : Int) - (s.readV x).toNat) % 256) ∧
    t.pc = s.pc + 2#16 ∧ KeepsRegsBut [x, 15] s t ∧ KeepsBut [] s t

/-- SHR and SHL shift Vx by one in place, whatever Vy is; VF is the bit shifted out, written last
(43_alu.md, decision D4). -/
def Obligations.ShiftsMoveOneBitIntoVf : Prop :=
  ∀ (x y : Reg) (s : State),
    (∃ t, exec (.shr x y) s = .next t ∧ (t.readV 15).toNat = (s.readV x).toNat % 2 ∧
      (x ≠ 15 → (t.readV x).toNat = (s.readV x).toNat / 2) ∧
      t.pc = s.pc + 2#16 ∧ KeepsRegsBut [x, 15] s t ∧ KeepsBut [] s t) ∧
    (∃ t, exec (.shl x y) s = .next t ∧ (t.readV 15).toNat = (s.readV x).toNat / 128 ∧
      (x ≠ 15 → (t.readV x).toNat = (s.readV x).toNat * 2 % 256) ∧
      t.pc = s.pc + 2#16 ∧ KeepsRegsBut [x, 15] s t ∧ KeepsBut [] s t)

/-- RND masks the byte it draws, whatever that byte is, and the draw is consumed; a mask of 0 gives 0
(43_alu.md, decision D23; the draw is the free value of log 2). -/
def Obligations.RandomIsTheMaskedDraw : Prop :=
  ∀ (x : Reg) (nn : Byte) (s : State), ∃ t, exec (.rnd x nn) s = .next t ∧
    (∀ b < 8, (t.readV x).getLsbD b = ((Config.randomByte s.draws).getLsbD b && nn.getLsbD b)) ∧
    (nn = 0#8 → t.readV x = 0#8) ∧ t.draws = s.draws + 1 ∧
    t.pc = s.pc + 2#16 ∧ KeepsRegsBut [x] s t ∧ KeepsBut [] s t

/-! ## Index register and memory transfers -/

/-- R145, its word included. -/
def Obligations.LoadIndexSetsI : Prop :=
  ∀ (nnn : Addr) (s : State), (encode (.ldI nnn)).toNat = 0xA000 + nnn.toNat ∧ ∃ t, exec (.ldI nnn) s = .next t ∧ t.i.toNat = nnn.toNat ∧
    t.pc = s.pc + 2#16 ∧ KeepsRegsBut [] s t ∧ KeepsBut [.index] s t

/-- FX1E adds modulo 65536 and sets no flag; FX29 points I at the glyph of Vx's low nibble
(44_index_memory.md, decisions D3, D13, D14). -/
def Obligations.IndexAddAndGlyphAddress : Prop :=
  ∀ (x : Reg) (s : State),
    (∃ t, exec (.addIVx x) s = .next t ∧ t.i.toNat = (s.i.toNat + (s.readV x).toNat) % 65536 ∧
      t.pc = s.pc + 2#16 ∧ KeepsRegsBut [] s t ∧ KeepsBut [.index] s t) ∧
    (∃ t, exec (.ldFVx x) s = .next t ∧ t.i.toNat = 0x50 + 5 * ((s.readV x).toNat % 16) ∧
      t.pc = s.pc + 2#16 ∧ KeepsRegsBut [] s t ∧ KeepsBut [.index] s t)

/-- FX33 writes the three decimal digits of Vx, hundreds first, at I, I + 1, I + 2 (44_index_memory.md,
decision D30). -/
def Obligations.BcdWritesTheDecimalDigits : Prop :=
  ∀ (x : Reg) (s : State), s.mem.wf = true → s.i.toNat + 2 < memSize →
    ∃ t, exec (.ldBVx x) s = .next t ∧
      (s.readV x).toNat =
        100 * (t.mem.read (effectiveAddr s 0)).toNat + 10 * (t.mem.read (effectiveAddr s 1)).toNat +
          (t.mem.read (effectiveAddr s 2)).toNat ∧
      (t.mem.read (effectiveAddr s 1)).toNat ≤ 9 ∧ (t.mem.read (effectiveAddr s 2)).toNat ≤ 9 ∧
      KeepsBytesBut (effectiveAddr s 0) 3 s t ∧ t.pc = s.pc + 2#16 ∧
      KeepsRegsBut [] s t ∧ KeepsBut [.memory] s t

/-- FX55 stores V0 to Vx from I on and leaves I as it is (44_index_memory.md, decision D5). -/
def Obligations.StoreWritesTheRegisters : Prop :=
  ∀ (x : Reg) (s : State), s.mem.wf = true → s.i.toNat + x.val < memSize →
    ∃ t, exec (.ldMemVx x) s = .next t ∧
      (∀ k : Reg, k ≤ x → t.mem.read (effectiveAddr s k.val) = s.readV k) ∧
      KeepsBytesBut (effectiveAddr s 0) (x.val + 1) s t ∧
      t.pc = s.pc + 2#16 ∧ KeepsRegsBut [] s t ∧ KeepsBut [.memory] s t

/-- FX65 loads V0 to Vx from I on; the other registers, I and every byte of memory stay
(44_index_memory.md, decision D5). -/
def Obligations.LoadReadsTheRegisters : Prop :=
  ∀ (x : Reg) (s : State), s.i.toNat + x.val < memSize →
    ∃ t, exec (.ldVxMem x) s = .next t ∧
      (∀ k : Reg, t.readV k = if k ≤ x then s.mem.read (effectiveAddr s k.val) else s.readV k) ∧
      t.pc = s.pc + 2#16 ∧ KeepsBut [] s t

/-- The alternatives of the parameters SHIFT_USES_VY and LOADSTORE_INCREMENTS_I (decisions D4, D5; log 3):
shifting Vy into Vx, and leaving I after the last byte moved, modulo 65536; the machine runs the
spec's values. -/
def Obligations.ParametersGiveTheOtherConventions : Prop :=
  ∀ (c : Config) (x y : Reg) (s : State),
    (c.shiftUsesVy = true →
      ∃ t u, execShrUnder c x y s = .next t ∧ execShlUnder c x y s = .next u ∧
        (t.readV 15).toNat = (s.readV y).toNat % 2 ∧ (u.readV 15).toNat = (s.readV y).toNat / 128 ∧
        (x ≠ 15 → (t.readV x).toNat = (s.readV y).toNat / 2 ∧ (u.readV x).toNat = (s.readV y).toNat * 2 % 256)) ∧
    (c.loadStoreIncrementsI = true → s.i.toNat + x.val < memSize →
      ∃ t u, execLdMemVxUnder c x s = .next t ∧ execLdVxMemUnder c x s = .next u ∧
        t.i.toNat = (s.i.toNat + x.val + 1) % 65536 ∧ u.i.toNat = (s.i.toNat + x.val + 1) % 65536) ∧
    exec (.shr x y) s = execShrUnder Config.spec x y s ∧ exec (.shl x y) s = execShlUnder Config.spec x y s ∧
    exec (.ldMemVx x) s = execLdMemVxUnder Config.spec x s ∧ exec (.ldVxMem x) s = execLdVxMemUnder Config.spec x s

/-- What FX55 stored, FX65 loads back into the same registers, from any state with that memory and that I
(20_memory.md section 5; 44_index_memory.md). -/
def Obligations.StoreThenLoadRestoresTheRegisters : Prop :=
  ∀ (x : Reg) (s : State), s.mem.wf = true → s.i.toNat + x.val < memSize →
    ∃ t, exec (.ldMemVx x) s = .next t ∧
      ∀ u : State, u.mem = t.mem → u.i = s.i →
        ∃ w, exec (.ldVxMem x) u = .next w ∧ ∀ k : Reg, k ≤ x → w.readV k = s.readV k

/-- Bytes that FX55 stored are what a later fetch at their address reads, with nothing between
(20_memory.md section 5, decision D26). -/
def Obligations.StoredBytesAreFetched : Prop :=
  ∀ (x k : Reg) (s : State), s.mem.wf = true → s.i.toNat + x.val < memSize → k < x →
    ∃ t, exec (.ldMemVx x) s = .next t ∧
      ∀ u : State, u.mem = t.mem → u.pc.toNat = s.i.toNat + k.val →
        u.fetch = .bytes [s.readV k, s.readV (k + 1)]

/-! ## Display -/

/-- CLS turns every cell off and sets the redraw flag (45_display.md, decision D24). -/
def Obligations.ClsTurnsEveryCellOff : Prop :=
  ∀ s : State, ∃ t, exec .cls s = .next t ∧ (∀ px py, t.fb.cell px py = false) ∧ t.redraw = true ∧
    t.pc = s.pc + 2#16 ∧ KeepsRegsBut [] s t ∧ KeepsBut [.screen, .redraw] s t

/-- R158, its word included: DRW toggles exactly the cells under the sprite's 1 bits, wrapped at both edges; VF is 1 exactly
when some cell went from on to off, else 0; the redraw flag is set; outside memory it raises and changes
nothing else. -/
def Obligations.DrawTogglesExactlyTheSprite : Prop :=
  ∀ (x y : Reg) (n : Nibble) (s : State),
    (encode (.drw x y n)).toNat = 0xD000 + x.val * 256 + y.val * 16 + n.toNat ∧
    (n.toNat = 0 ∨ s.i.toNat + n.toNat ≤ memSize →
      ∃ t, exec (.drw x y n) s = .next t ∧
        (∀ px py, px < 64 → py < 32 →
          (t.fb.cell px py ≠ s.fb.cell px py ↔
            ∃ r c, r < n.toNat ∧ c < 8 ∧ (s.mem.read (effectiveAddr s r)).getLsbD (7 - c) = true ∧
              px = ((s.readV x).toNat + c) % 64 ∧ py = ((s.readV y).toNat + r) % 32)) ∧
        (t.readV 15 = 1#8 ↔ ∃ px py, px < 64 ∧ py < 32 ∧ s.fb.cell px py = true ∧ t.fb.cell px py = false) ∧
        (t.readV 15 = 0#8 ∨ t.readV 15 = 1#8) ∧ t.redraw = true ∧
        t.pc = s.pc + 2#16 ∧ KeepsRegsBut [15] s t ∧ KeepsBut [.screen, .redraw] s t) ∧
    (n.toNat ≠ 0 → memSize < s.i.toNat + n.toNat →
      ∃ t, exec (.drw x y n) s = .next t ∧
        Raised .memoryOutOfBounds (some (encode (.drw x y n))) (some (max s.i.toNat memSize)) s t)

/-- Drawing the same sprite at the same place twice restores the framebuffer (45_display.md, the XOR round
trip). The second draw sets VF exactly when some cell under a 1 bit was OFF before the first draw: it is
then on after the first and erased by the second. The spec's own inference, that any 1 bit suffices,
overlooks a sprite whose cells were all on; the rule of DRW itself decides (conflict C6; log 12). -/
def Obligations.DrawingTwiceRestoresTheScreen : Prop :=
  ∀ (x y : Reg) (n : Nibble) (s : State), x ≠ 15 → y ≠ 15 → (n.toNat = 0 ∨ s.i.toNat + n.toNat ≤ memSize) →
    ∃ t, execAll [.drw x y n, .drw x y n] s = .next t ∧ t.fb = s.fb ∧
      (t.readV 15 = 1#8 ↔
        ∃ r c, r < n.toNat ∧ c < 8 ∧ (s.mem.read (effectiveAddr s r)).getLsbD (7 - c) = true ∧
          s.fb.cell (((s.readV x).toNat + c) % 64) (((s.readV y).toNat + r) % 32) = false)

/-! ## Timers and key wait -/

/-- R165, its word included: FX07 reads DT as it stands before this cycle's decay. -/
def Obligations.ReadDelayTimerBeforeDecay : Prop :=
  ∀ (x : Reg) (s : State), (encode (.ldVxDT x)).toNat = 0xF007 + x.val * 256 ∧
    (∃ t, exec (.ldVxDT x) s = .next t ∧ t.readV x = s.dt ∧ t.pc = s.pc + 2#16 ∧
      KeepsRegsBut [x] s t ∧ KeepsBut [] s t) ∧
    (s.Runs (.ldVxDT x) → ∃ t, step s = .next t ∧ t.readV x = s.dt ∧ t.dt.toNat = s.dt.toNat - 1)

/-- R167 and R168, their words included: FX15 and FX18 set their timer to Vx, and the same cycle's decay
follows. -/
def Obligations.SetTimersThenDecay : Prop :=
  ∀ (x : Reg) (s : State),
    (encode (.ldDTVx x)).toNat = 0xF015 + x.val * 256 ∧ (encode (.ldSTVx x)).toNat = 0xF018 + x.val * 256 ∧
    (∃ t, exec (.ldDTVx x) s = .next t ∧ t.dt = s.readV x ∧ t.pc = s.pc + 2#16 ∧
      KeepsRegsBut [] s t ∧ KeepsBut [.delay] s t) ∧
    (∃ t, exec (.ldSTVx x) s = .next t ∧ t.st = s.readV x ∧ t.pc = s.pc + 2#16 ∧
      KeepsRegsBut [] s t ∧ KeepsBut [.sound] s t) ∧
    (s.Runs (.ldDTVx x) → ∃ t, step s = .next t ∧ t.dt.toNat = (s.readV x).toNat - 1) ∧
    (s.Runs (.ldSTVx x) → ∃ t, step s = .next t ∧ t.st.toNat = (s.readV x).toNat - 1)

/-- FX0A enters the wait and examines no key in its own cycle (46_timers_keys.md, decision D12). -/
def Obligations.KeyWaitIsEntered : Prop :=
  ∀ (x : Reg) (s : State), ∃ t, exec (.ldVxK x) s = .next t ∧ t.waiting = true ∧ t.waitReg = x ∧
    t.pc = s.pc + 2#16 ∧ KeepsRegsBut [] s t ∧ KeepsBut [.wait] s t

/-- A key already held when FX0A executes ends the wait in the very next cycle, with the lowest held key in
Vx and pc after the FX0A (46_timers_keys.md, decision D12). -/
def Obligations.HeldKeyEndsTheWaitInTheNextCycle : Prop :=
  ∀ (x k : Reg) (s : State), s.Runs (.ldVxK x) → s.key[k] = true → (∀ j : Reg, j < k → s.key[j] = false) →
    ∃ t, hostRun [.cycle, .cycle] s = .next t ∧ t.Running ∧ (t.readV x).toNat = k.val ∧
      t.pc = s.pc + 2#16 ∧ t.dt.toNat = s.dt.toNat - 2 ∧ KeepsRegsBut [x] s t

/-- With no key set a blocked machine stays blocked for any number of cycles, at the same pc, while both
timers go down to 0 and stay there (40_cycle.md; 93_implementation_defined.md K12). -/
def Obligations.BlockedMachineWaitsWhileTimersRunOut : Prop :=
  ∀ (n : Nat) (s : State), s.Blocked → (∀ k : Reg, s.key[k] = false) →
    ∃ t, hostRun (List.replicate n .cycle) s = .next t ∧ t.Blocked ∧ t.pc = s.pc ∧
      t.dt.toNat = s.dt.toNat - n ∧ t.st.toNat = s.st.toNat - n ∧
      KeepsRegsBut [] s t ∧ KeepsBut [.delay, .sound] s t

/-! ## Reset and load -/

/-- The state after reset: the table of 10_state.md section 7 and the font of 20_memory.md section 4
(decisions D3, D18, D22); the first step with no image records IllegalInstruction at 0x200, with the info
of log 4. -/
def Obligations.ResetStateIsTheTable : Prop :=
  (∀ g k, g < 16 → k < 5 →
    State.reset.mem.read (0x50 + 5 * g + k) =
      (([[0xF0#8, 0x90#8, 0x90#8, 0x90#8, 0xF0#8], [0x20#8, 0x60#8, 0x20#8, 0x20#8, 0x70#8],
         [0xF0#8, 0x10#8, 0xF0#8, 0x80#8, 0xF0#8], [0xF0#8, 0x10#8, 0xF0#8, 0x10#8, 0xF0#8],
         [0x90#8, 0x90#8, 0xF0#8, 0x10#8, 0x10#8], [0xF0#8, 0x80#8, 0xF0#8, 0x10#8, 0xF0#8],
         [0xF0#8, 0x80#8, 0xF0#8, 0x90#8, 0xF0#8], [0xF0#8, 0x10#8, 0x20#8, 0x40#8, 0x40#8],
         [0xF0#8, 0x90#8, 0xF0#8, 0x90#8, 0xF0#8], [0xF0#8, 0x90#8, 0xF0#8, 0x10#8, 0xF0#8],
         [0xF0#8, 0x90#8, 0xF0#8, 0x90#8, 0x90#8], [0xE0#8, 0x90#8, 0xE0#8, 0x90#8, 0xE0#8],
         [0xF0#8, 0x80#8, 0x80#8, 0x80#8, 0xF0#8], [0xE0#8, 0x90#8, 0x90#8, 0x90#8, 0xE0#8],
         [0xF0#8, 0x80#8, 0xF0#8, 0x80#8, 0xF0#8], [0xF0#8, 0x80#8, 0xF0#8, 0x80#8, 0x80#8]].getD g []).getD k 0#8)) ∧
  (∀ a, a < 0x50 ∨ 0x9F < a → State.reset.mem.read a = 0#8) ∧
  (∀ x, State.reset.readV x = 0#8) ∧ State.reset.i = 0#16 ∧ State.reset.pc = 0x200#16 ∧ State.reset.stack = [] ∧
  State.reset.dt = 0#8 ∧ State.reset.st = 0#8 ∧ (∀ px py, State.reset.fb.cell px py = false) ∧
  (∀ k : Reg, State.reset.key[k] = false) ∧ State.reset.redraw = false ∧ State.reset.waiting = false ∧
  State.reset.waitReg = 0 ∧ State.reset.fault = none ∧
  ∃ t, step State.reset = .next t ∧ Raised .illegalInstruction (some 0x0000#16) (some 0) State.reset t

/-- R203 and R199: a read failure or an image of more than 3584 bytes changes nothing; any other image is
placed at 0x200 in a machine that is reset in every field. -/
def Obligations.LoadPlacesTheImageInAResetMachine : Prop :=
  ∀ s : State,
    load .readFailure s = (some .imageReadError, s) ∧
    (∀ image : List Byte, 3584 < image.length → load (.bytes image) s = (some .imageTooLarge, s)) ∧
    (∀ image : List Byte, image.length ≤ 3584 →
      ∃ t, load (.bytes image) s = (none, t) ∧
        (∀ a, t.mem.read a =
          if 0x200 ≤ a ∧ a < 0x200 + image.length then image.getD (a - 0x200) 0#8 else State.reset.mem.read a) ∧
        t.pc = 0x200#16 ∧ KeepsRegsBut [] State.reset t ∧ KeepsBut [.memory] State.reset t)

/-- The first cycle after a load executes the image's first two bytes, fetched at 0x200
(70_reset_and_hazards.md sections 1 and 2). -/
def Obligations.LoadedProgramStartsAtItsFirstWord : Prop :=
  ∀ (hi lo : Byte) (rest : List Byte) (i : Instr) (s : State), rest.length ≤ 3582 → decode [hi, lo] = .instr i →
    (load (.bytes (hi :: lo :: rest)) s).2.Runs i ∧ (load (.bytes (hi :: lo :: rest)) s).2.pc = 0x200#16
end

