-- ==== Sys2Proof/Laws/Encoding.lean ====
section
/-! SUPPORT. The fields of an encoded word, shape by shape (spec/30_encoding.md R71, R72). -/

namespace Sys2Proof

/-- Appending bit vectors, as arithmetic. -/
theorem toNat_append_add {n m : Nat} (a : BitVec n) (b : BitVec m) : (a ++ b).toNat = a.toNat * 2 ^ m + b.toNat := by
  rw [BitVec.toNat_append, ← Nat.shiftLeft_add_eq_or_of_lt b.isLt, Nat.shiftLeft_eq]

/-- The word of shape `XNN` as a number. -/
theorem toNat_encodeXNN (f : Nibble) (x : Reg) (nn : Byte) :
    (encodeXNN f x nn).toNat = f.toNat * 4096 + x.val * 256 + nn.toNat := by
  simp only [encodeXNN, regField, toNat_append_add, BitVec.toNat_ofFin]
  omega

/-- The word of shape `XYN` as a number. -/
theorem toNat_encodeXYN (f : Nibble) (x y : Reg) (n : Nibble) :
    (encodeXYN f x y n).toNat = f.toNat * 4096 + x.val * 256 + y.val * 16 + n.toNat := by
  simp only [encodeXYN, regField, toNat_append_add, BitVec.toNat_ofFin]
  omega

/-- The word of shape `NNN` as a number. -/
theorem toNat_encodeNNN (f : Nibble) (nnn : Addr) : (encodeNNN f nnn).toNat = f.toNat * 4096 + nnn.toNat := by
  simp only [encodeNNN, toNat_append_add]
  omega

/-! ## The fields as arithmetic -/

/-- `op[15:12]`. -/
theorem fieldFamily_eq (op : Word) : fieldFamily op = op.toNat / 4096 := by
  have := op.isLt
  simp only [fieldFamily, BitVec.extractLsb'_toNat, Nat.shiftRight_eq_div_pow]
  omega

/-- `op[11:8]`. -/
theorem fieldX_val (op : Word) : (fieldX op).val = op.toNat / 256 % 16 := by
  simp only [fieldX, BitVec.extractLsb', Nat.shiftRight_eq_div_pow]
  rfl

/-- `op[7:4]`. -/
theorem fieldY_val (op : Word) : (fieldY op).val = op.toNat / 16 % 16 := by
  simp only [fieldY, BitVec.extractLsb', Nat.shiftRight_eq_div_pow]
  rfl

/-- `op[3:0]`. -/
theorem fieldN_toNat (op : Word) : (fieldN op).toNat = op.toNat % 16 := by
  simp [fieldN, BitVec.extractLsb'_toNat]

/-- `op[7:0]`. -/
theorem fieldNN_toNat (op : Word) : (fieldNN op).toNat = op.toNat % 256 := by
  simp [fieldNN, BitVec.extractLsb'_toNat]

/-- `op[11:0]`. -/
theorem fieldNNN_toNat (op : Word) : (fieldNNN op).toNat = op.toNat % 4096 := by
  simp [fieldNNN, BitVec.extractLsb'_toNat]

/-! ## The fields of each shape -/

section
variable (f : Nibble) (x y : Reg) (n : Nibble) (nn : Byte) (nnn : Addr)

theorem fieldFamily_encodeXNN : fieldFamily (encodeXNN f x nn) = f.toNat := by
  have := x.isLt; have := nn.isLt
  rw [fieldFamily_eq, toNat_encodeXNN]; omega

theorem fieldX_encodeXNN : fieldX (encodeXNN f x nn) = x := by
  have := x.isLt; have := nn.isLt
  apply Fin.ext
  rw [fieldX_val, toNat_encodeXNN]; omega

theorem fieldNN_encodeXNN : fieldNN (encodeXNN f x nn) = nn := by
  have := nn.isLt
  apply BitVec.eq_of_toNat_eq
  rw [fieldNN_toNat, toNat_encodeXNN]; omega

theorem fieldFamily_encodeXYN : fieldFamily (encodeXYN f x y n) = f.toNat := by
  have := x.isLt; have := y.isLt; have := n.isLt
  rw [fieldFamily_eq, toNat_encodeXYN]; omega

theorem fieldX_encodeXYN : fieldX (encodeXYN f x y n) = x := by
  have := x.isLt; have := y.isLt; have := n.isLt
  apply Fin.ext
  rw [fieldX_val, toNat_encodeXYN]; omega

theorem fieldY_encodeXYN : fieldY (encodeXYN f x y n) = y := by
  have := y.isLt; have := n.isLt
  apply Fin.ext
  rw [fieldY_val, toNat_encodeXYN]; omega

theorem fieldN_encodeXYN : fieldN (encodeXYN f x y n) = n := by
  have := n.isLt
  apply BitVec.eq_of_toNat_eq
  rw [fieldN_toNat, toNat_encodeXYN]; omega

theorem fieldFamily_encodeNNN : fieldFamily (encodeNNN f nnn) = f.toNat := by
  have := nnn.isLt
  rw [fieldFamily_eq, toNat_encodeNNN]; omega

theorem fieldNNN_encodeNNN : fieldNNN (encodeNNN f nnn) = nnn := by
  have := nnn.isLt
  apply BitVec.eq_of_toNat_eq
  rw [fieldNNN_toNat, toNat_encodeNNN]; omega

end

/-! ## A word is its fields -/

/-- Shape `XNN` of a word's own fields is the word. -/
theorem encodeXNN_fields {op : Word} {f : Nibble} {nn : Byte} (hf : fieldFamily op = f.toNat) (hn : fieldNN op = nn) :
    encodeXNN f (fieldX op) nn = op := by
  apply BitVec.eq_of_toNat_eq
  have := op.isLt
  rw [toNat_encodeXNN, fieldX_val, ← hf, ← hn, fieldNN_toNat, fieldFamily_eq]
  omega

/-- Shape `XYN` of a word's own fields is the word. -/
theorem encodeXYN_fields {op : Word} {f n : Nibble} (hf : fieldFamily op = f.toNat) (hn : (fieldN op).toNat = n.toNat) :
    encodeXYN f (fieldX op) (fieldY op) n = op := by
  apply BitVec.eq_of_toNat_eq
  have := op.isLt
  rw [toNat_encodeXYN, fieldX_val, fieldY_val, ← hf, ← hn, fieldN_toNat, fieldFamily_eq]
  omega

/-- Shape `NNN` of a word's own fields is the word. -/
theorem encodeNNN_fields {op : Word} {f : Nibble} (hf : fieldFamily op = f.toNat) : encodeNNN f (fieldNNN op) = op := by
  apply BitVec.eq_of_toNat_eq
  have := op.isLt
  rw [toNat_encodeNNN, fieldNNN_toNat, ← hf, fieldFamily_eq]
  omega

/-! ## The bytes of a word -/

/-- Decoding the bytes of a word is decoding the word (R55). -/
@[simp] theorem decode_bytesOfWord (op : Word) : decode (bytesOfWord op) = decodeWord op := by
  have h : wordOfBytes (op.extractLsb' 8 8) (op.extractLsb' 0 8) = op := by
    apply BitVec.eq_of_toNat_eq
    have := op.isLt
    simp only [wordOfBytes, toNat_append_add, BitVec.extractLsb'_toNat, Nat.shiftRight_eq_div_pow]
    omega
  simp [decode, bytesOfWord, h]

/-- The word of two bytes as a number (R55: `mem[pc] * 256 + mem[pc + 1]`). -/
theorem toNat_wordOfBytes (hi lo : Byte) : (wordOfBytes hi lo).toNat = hi.toNat * 256 + lo.toNat := by
  simp only [wordOfBytes, toNat_append_add]
  omega

end Sys2Proof
end

