-- ==== Sys2Proof/Laws/Memory.lean ====
section
/-! SUPPORT. The laws of memory: the canonical form is kept by every operation, a read after a write,
byte lists, the bounds check. -/

namespace Sys2Proof.Machine

/-! ## The reset contents -/

/-- The font lies below 0xA0, so everything from there on is 0 after reset (R59). -/
theorem resetByte_above_font (a : Nat) (h : 0xA0 ≤ a) : resetByte a = 0#8 := by
  have hlen : font.length = 80 := by decide
  have hb : fontBase = 0x50 := rfl
  unfold resetByte
  rw [if_neg (by omega), List.getD_eq_default _ _ (by omega)]

/-! ## The canonical form, as a proposition -/

/-- One entry of the canonical form. -/
theorem Memory.canonicalFrom_cons (lo a : Nat) (v : Byte) (m : Memory) :
    Memory.canonicalFrom lo ((a, v) :: m) = true ↔
      lo ≤ a ∧ a < memSize ∧ v ≠ resetByte a ∧ Memory.canonicalFrom (a + 1) m = true := by
  simp [Memory.canonicalFrom, and_assoc]

/-- A canonical list is canonical from any lower address on. -/
theorem Memory.canonicalFrom_mono {lo lo' : Nat} (h : lo' ≤ lo) {m : Memory}
    (hm : Memory.canonicalFrom lo m = true) : Memory.canonicalFrom lo' m = true := by
  cases m with
  | nil => rfl
  | cons c m =>
    obtain ⟨a, v⟩ := c
    rw [Memory.canonicalFrom_cons] at hm ⊢
    exact ⟨h.trans hm.1, hm.2⟩

/-- Below its first possible entry a canonical list reads as the reset contents. -/
theorem Memory.read_below {lo : Nat} {m : Memory} (hm : Memory.canonicalFrom lo m = true) {a : Nat} (ha : a < lo) :
    m.read a = resetByte a := by
  induction m generalizing lo with
  | nil => rfl
  | cons c m ih =>
    obtain ⟨b, w⟩ := c
    rw [Memory.canonicalFrom_cons] at hm
    rw [Memory.read, if_neg (by omega)]
    exact ih hm.2.2.2 (by omega)

/-- Outside the array nothing is listed. -/
theorem Memory.read_outside {lo : Nat} {m : Memory} (hm : Memory.canonicalFrom lo m = true) {a : Nat} (ha : memSize ≤ a) :
    m.read a = resetByte a := by
  induction m generalizing lo with
  | nil => rfl
  | cons c m ih =>
    obtain ⟨b, w⟩ := c
    rw [Memory.canonicalFrom_cons] at hm
    rw [Memory.read, if_neg (by omega)]
    exact ih hm.2.2.2

/-! ## erase, insert, write -/

/-- `erase` keeps the canonical form. -/
theorem Memory.canonicalFrom_erase {lo : Nat} {m : Memory} (hm : Memory.canonicalFrom lo m = true) (a : Nat) :
    Memory.canonicalFrom lo (m.erase a) = true := by
  induction m generalizing lo with
  | nil => rfl
  | cons c m ih =>
    obtain ⟨b, w⟩ := c
    rw [Memory.canonicalFrom_cons] at hm
    rw [Memory.erase]
    split
    · exact Memory.canonicalFrom_mono (by omega) hm.2.2.2
    · rw [Memory.canonicalFrom_cons]
      exact ⟨hm.1, hm.2.1, hm.2.2.1, ih hm.2.2.2⟩

/-- `insert` of a byte that differs from the reset contents keeps the canonical form. -/
theorem Memory.canonicalFrom_insert {lo : Nat} {m : Memory} (hm : Memory.canonicalFrom lo m = true) {a : Nat} {v : Byte}
    (hlo : lo ≤ a) (ha : a < memSize) (hv : v ≠ resetByte a) : Memory.canonicalFrom lo (m.insert a v) = true := by
  induction m generalizing lo with
  | nil =>
    rw [Memory.insert, Memory.canonicalFrom_cons]
    exact ⟨hlo, ha, hv, rfl⟩
  | cons c m ih =>
    obtain ⟨b, w⟩ := c
    rw [Memory.canonicalFrom_cons] at hm
    rw [Memory.insert]
    split
    · rw [Memory.canonicalFrom_cons, Memory.canonicalFrom_cons]
      exact ⟨hlo, ha, hv, by omega, hm.2⟩
    · split
      · rename_i hab
        subst hab
        rw [Memory.canonicalFrom_cons]
        exact ⟨hm.1, ha, hv, hm.2.2.2⟩
      · rw [Memory.canonicalFrom_cons]
        exact ⟨hm.1, hm.2.1, hm.2.2.1, ih hm.2.2.2 (by omega)⟩

/-- A read after `erase`. -/
theorem Memory.read_erase {lo : Nat} {m : Memory} (hm : Memory.canonicalFrom lo m = true) (a b : Nat) :
    (m.erase a).read b = if a = b then resetByte b else m.read b := by
  induction m generalizing lo with
  | nil => simp [Memory.erase, Memory.read]
  | cons c m ih =>
    obtain ⟨d, w⟩ := c
    rw [Memory.canonicalFrom_cons] at hm
    have hbelow : ∀ e, e ≤ d → Memory.read m e = resetByte e := fun e he =>
      Memory.read_below hm.2.2.2 (by omega)
    rw [Memory.erase, Memory.read]
    split
    · rename_i hd
      subst hd
      split
      · rename_i hb; subst hb; exact hbelow _ le_rfl
      · rfl
    · rw [Memory.read, ih hm.2.2.2]
      split
      · rw [if_neg (by omega)]
      · rfl

/-- A read after `insert`. -/
theorem Memory.read_insert (m : Memory) (a b : Nat) (v : Byte) :
    (m.insert a v).read b = if a = b then v else m.read b := by
  induction m with
  | nil => simp [Memory.insert, Memory.read]
  | cons c m ih =>
    obtain ⟨d, w⟩ := c
    rw [Memory.insert]
    split
    · simp [Memory.read]
    · split
      · rename_i had
        subst had
        simp only [Memory.read]
        split <;> simp
      · rename_i h1 h2
        simp only [Memory.read, ih]
        split
        · rw [if_neg (by omega)]
        · rfl

/-- `Memory.write` keeps the canonical form. -/
theorem Memory.wf_write {m : Memory} (hm : m.wf = true) {a : Nat} (ha : a < memSize) (v : Byte) :
    (m.write a v).wf = true := by
  unfold Memory.write
  split
  · exact Memory.canonicalFrom_erase hm a
  · exact Memory.canonicalFrom_insert hm (Nat.zero_le a) ha ‹_›

/-- A read after a write: the byte written at its address, every other byte as before (R62). -/
theorem Memory.read_write {m : Memory} (hm : m.wf = true) (a b : Nat) (v : Byte) :
    (m.write a v).read b = if a = b then v else m.read b := by
  unfold Memory.write
  split
  · rename_i hv
    rw [Memory.read_erase hm]
    split
    · rename_i h; rw [hv, h]
    · rfl
  · exact Memory.read_insert m a b v

/-- A byte outside memory reads as 0 in a canonical list. -/
theorem Memory.read_of_wf_outside {m : Memory} (hm : m.wf = true) {a : Nat} (ha : memSize ≤ a) : m.read a = 0#8 := by
  have hsize : memSize = 4096 := rfl
  rw [Memory.read_outside hm ha, resetByte_above_font a (by omega)]

/-- The memory of reset is canonical. -/
@[simp] theorem Memory.wf_nil : Memory.wf [] = true := rfl

/-! ## Byte lists -/

/-- Writing a list of bytes inside memory keeps the canonical form. -/
theorem Memory.wf_writeBytes {m : Memory} (hm : m.wf = true) (bs : List Byte) {a : Nat} (ha : a + bs.length ≤ memSize) :
    (m.writeBytes a bs).wf = true := by
  induction bs generalizing a with
  | nil => exact hm
  | cons b bs ih =>
    rw [List.length_cons] at ha
    exact Memory.wf_write (ih (by omega)) (by omega) b

/-- A read after a list of bytes is written inside memory. -/
theorem Memory.read_writeBytes {m : Memory} (hm : m.wf = true) (bs : List Byte) {a : Nat} (ha : a + bs.length ≤ memSize)
    (b : Nat) :
    (m.writeBytes a bs).read b = if a ≤ b ∧ b < a + bs.length then bs.getD (b - a) 0#8 else m.read b := by
  induction bs generalizing a with
  | nil => rw [Memory.writeBytes, if_neg (by simp only [List.length_nil]; omega)]
  | cons c bs ih =>
    rw [List.length_cons] at ha ⊢
    rw [Memory.writeBytes, Memory.read_write (Memory.wf_writeBytes hm bs (by omega)), ih (by omega)]
    by_cases hab : a = b
    · subst hab
      simp
    · rw [if_neg hab]
      by_cases hin : a ≤ b ∧ b < a + (bs.length + 1)
      · rw [if_pos (by omega), if_pos hin, show b - a = (b - (a + 1)) + 1 by omega, List.getD_cons_succ]
      · rw [if_neg (by omega), if_neg hin]

/-- How many bytes `readBytes` answers. -/
@[simp] theorem Memory.length_readBytes (m : Memory) (a n : Nat) : (m.readBytes a n).length = n := by
  induction n generalizing a with
  | zero => rfl
  | succ n ih => simp [Memory.readBytes, ih]

/-- The k-th byte that `readBytes` answers. -/
theorem Memory.getD_readBytes (m : Memory) (a n k : Nat) (hk : k < n) (d : Byte) :
    (m.readBytes a n).getD k d = m.read (a + k) := by
  induction n generalizing a k with
  | zero => omega
  | succ n ih =>
    cases k with
    | zero => simp [Memory.readBytes]
    | succ k => rw [Memory.readBytes, List.getD_cons_succ, ih _ _ (by omega)]; congr 1; omega

/-! ## The bounds check -/

/-- The check passes exactly when the access set is empty or inside memory. -/
theorem firstOutOfRange_eq_none {a n : Nat} : firstOutOfRange a n = none ↔ n = 0 ∨ a + n ≤ memSize := by
  unfold firstOutOfRange
  split <;> simp_all

/-- A failing check answers the lowest address of the set outside memory (R54). -/
theorem firstOutOfRange_eq_some {a n bad : Nat} :
    firstOutOfRange a n = some bad ↔ (n ≠ 0 ∧ memSize < a + n) ∧ bad = max a memSize := by
  unfold firstOutOfRange
  split
  · simp only [reduceCtorEq, false_iff]; omega
  · simp only [Option.some.injEq]; omega

/-- The whole of what a checked access can do: its effect when all addresses are inside memory, else
nothing but the fault record. -/
theorem State.checked_cases (s : State) (op : Word) (a n : Nat) (k : State) :
    ((n = 0 ∨ a + n ≤ memSize) ∧ s.checked op a n k = k) ∨
    ((n ≠ 0 ∧ memSize < a + n) ∧
      s.checked op a n k = s.raise .memoryOutOfBounds (some op) (some (max a memSize))) := by
  unfold State.checked
  by_cases h : n = 0 ∨ a + n ≤ memSize
  · left; rw [firstOutOfRange_eq_none.2 h]; exact ⟨h, rfl⟩
  · right
    have h' : n ≠ 0 ∧ memSize < a + n := by omega
    rw [firstOutOfRange_eq_some.2 ⟨h', rfl⟩]
    exact ⟨h', rfl⟩

/-- A checked access inside memory has its effect. -/
theorem State.checked_inside {s : State} {op : Word} {a n : Nat} {k : State} (h : n = 0 ∨ a + n ≤ memSize) :
    s.checked op a n k = k := by
  unfold State.checked; rw [firstOutOfRange_eq_none.2 h]

/-- A checked access that leaves memory only records its fault. -/
theorem State.checked_outside {s : State} {op : Word} {a n : Nat} {k : State} (h : n ≠ 0 ∧ memSize < a + n) :
    s.checked op a n k = s.raise .memoryOutOfBounds (some op) (some (max a memSize)) := by
  unfold State.checked; rw [firstOutOfRange_eq_some.2 ⟨h, rfl⟩]

end Sys2Proof.Machine
end

