-- ==== Sys2Proof/Laws/State.lean ====
section
/-! SUPPORT. What each update of the state leaves in each field: one lemma per field per update, so that
no later proof unfolds a record update. -/

namespace Sys2Proof.Machine

/-! ## `State.writeV` -/

@[simp] theorem State.writeV_mem (s : State) (x : Reg) (b : Byte) : (s.writeV x b).mem = s.mem := rfl
@[simp] theorem State.writeV_v (s : State) (x : Reg) (b : Byte) : (s.writeV x b).v = s.v.set x b := rfl
@[simp] theorem State.writeV_i (s : State) (x : Reg) (b : Byte) : (s.writeV x b).i = s.i := rfl
@[simp] theorem State.writeV_pc (s : State) (x : Reg) (b : Byte) : (s.writeV x b).pc = s.pc := rfl
@[simp] theorem State.writeV_stack (s : State) (x : Reg) (b : Byte) : (s.writeV x b).stack = s.stack := rfl
@[simp] theorem State.writeV_dt (s : State) (x : Reg) (b : Byte) : (s.writeV x b).dt = s.dt := rfl
@[simp] theorem State.writeV_st (s : State) (x : Reg) (b : Byte) : (s.writeV x b).st = s.st := rfl
@[simp] theorem State.writeV_fb (s : State) (x : Reg) (b : Byte) : (s.writeV x b).fb = s.fb := rfl
@[simp] theorem State.writeV_key (s : State) (x : Reg) (b : Byte) : (s.writeV x b).key = s.key := rfl
@[simp] theorem State.writeV_redraw (s : State) (x : Reg) (b : Byte) : (s.writeV x b).redraw = s.redraw := rfl
@[simp] theorem State.writeV_waiting (s : State) (x : Reg) (b : Byte) : (s.writeV x b).waiting = s.waiting := rfl
@[simp] theorem State.writeV_waitReg (s : State) (x : Reg) (b : Byte) : (s.writeV x b).waitReg = s.waitReg := rfl
@[simp] theorem State.writeV_fault (s : State) (x : Reg) (b : Byte) : (s.writeV x b).fault = s.fault := rfl
@[simp] theorem State.writeV_draws (s : State) (x : Reg) (b : Byte) : (s.writeV x b).draws = s.draws := rfl

/-! ## `State.advance` -/

@[simp] theorem State.advance_mem (s : State) : (s.advance).mem = s.mem := rfl
@[simp] theorem State.advance_v (s : State) : (s.advance).v = s.v := rfl
@[simp] theorem State.advance_i (s : State) : (s.advance).i = s.i := rfl
@[simp] theorem State.advance_pc (s : State) : (s.advance).pc = s.pc + 2#16 := rfl
@[simp] theorem State.advance_stack (s : State) : (s.advance).stack = s.stack := rfl
@[simp] theorem State.advance_dt (s : State) : (s.advance).dt = s.dt := rfl
@[simp] theorem State.advance_st (s : State) : (s.advance).st = s.st := rfl
@[simp] theorem State.advance_fb (s : State) : (s.advance).fb = s.fb := rfl
@[simp] theorem State.advance_key (s : State) : (s.advance).key = s.key := rfl
@[simp] theorem State.advance_redraw (s : State) : (s.advance).redraw = s.redraw := rfl
@[simp] theorem State.advance_waiting (s : State) : (s.advance).waiting = s.waiting := rfl
@[simp] theorem State.advance_waitReg (s : State) : (s.advance).waitReg = s.waitReg := rfl
@[simp] theorem State.advance_fault (s : State) : (s.advance).fault = s.fault := rfl
@[simp] theorem State.advance_draws (s : State) : (s.advance).draws = s.draws := rfl

/-! ## `State.jump` -/

@[simp] theorem State.jump_mem (s : State) (target : Word) : (s.jump target).mem = s.mem := rfl
@[simp] theorem State.jump_v (s : State) (target : Word) : (s.jump target).v = s.v := rfl
@[simp] theorem State.jump_i (s : State) (target : Word) : (s.jump target).i = s.i := rfl
@[simp] theorem State.jump_pc (s : State) (target : Word) : (s.jump target).pc = target := rfl
@[simp] theorem State.jump_stack (s : State) (target : Word) : (s.jump target).stack = s.stack := rfl
@[simp] theorem State.jump_dt (s : State) (target : Word) : (s.jump target).dt = s.dt := rfl
@[simp] theorem State.jump_st (s : State) (target : Word) : (s.jump target).st = s.st := rfl
@[simp] theorem State.jump_fb (s : State) (target : Word) : (s.jump target).fb = s.fb := rfl
@[simp] theorem State.jump_key (s : State) (target : Word) : (s.jump target).key = s.key := rfl
@[simp] theorem State.jump_redraw (s : State) (target : Word) : (s.jump target).redraw = s.redraw := rfl
@[simp] theorem State.jump_waiting (s : State) (target : Word) : (s.jump target).waiting = s.waiting := rfl
@[simp] theorem State.jump_waitReg (s : State) (target : Word) : (s.jump target).waitReg = s.waitReg := rfl
@[simp] theorem State.jump_fault (s : State) (target : Word) : (s.jump target).fault = s.fault := rfl
@[simp] theorem State.jump_draws (s : State) (target : Word) : (s.jump target).draws = s.draws := rfl

/-! ## `State.raise` -/

@[simp] theorem State.raise_mem (s : State) (k : FaultKind) (op : Option Word) (n : Option Nat) : (s.raise k op n).mem = s.mem := rfl
@[simp] theorem State.raise_v (s : State) (k : FaultKind) (op : Option Word) (n : Option Nat) : (s.raise k op n).v = s.v := rfl
@[simp] theorem State.raise_i (s : State) (k : FaultKind) (op : Option Word) (n : Option Nat) : (s.raise k op n).i = s.i := rfl
@[simp] theorem State.raise_pc (s : State) (k : FaultKind) (op : Option Word) (n : Option Nat) : (s.raise k op n).pc = s.pc := rfl
@[simp] theorem State.raise_stack (s : State) (k : FaultKind) (op : Option Word) (n : Option Nat) : (s.raise k op n).stack = s.stack := rfl
@[simp] theorem State.raise_dt (s : State) (k : FaultKind) (op : Option Word) (n : Option Nat) : (s.raise k op n).dt = s.dt := rfl
@[simp] theorem State.raise_st (s : State) (k : FaultKind) (op : Option Word) (n : Option Nat) : (s.raise k op n).st = s.st := rfl
@[simp] theorem State.raise_fb (s : State) (k : FaultKind) (op : Option Word) (n : Option Nat) : (s.raise k op n).fb = s.fb := rfl
@[simp] theorem State.raise_key (s : State) (k : FaultKind) (op : Option Word) (n : Option Nat) : (s.raise k op n).key = s.key := rfl
@[simp] theorem State.raise_redraw (s : State) (k : FaultKind) (op : Option Word) (n : Option Nat) : (s.raise k op n).redraw = s.redraw := rfl
@[simp] theorem State.raise_waiting (s : State) (k : FaultKind) (op : Option Word) (n : Option Nat) : (s.raise k op n).waiting = s.waiting := rfl
@[simp] theorem State.raise_waitReg (s : State) (k : FaultKind) (op : Option Word) (n : Option Nat) : (s.raise k op n).waitReg = s.waitReg := rfl
@[simp] theorem State.raise_fault (s : State) (k : FaultKind) (op : Option Word) (n : Option Nat) : (s.raise k op n).fault = some { kind := k, code := faultCode k, pc := s.pc, opcode := op, info := n } := rfl
@[simp] theorem State.raise_draws (s : State) (k : FaultKind) (op : Option Word) (n : Option Nat) : (s.raise k op n).draws = s.draws := rfl

/-! ## `State.writeResultThenFlag` -/

@[simp] theorem State.writeResultThenFlag_mem (s : State) (x : Reg) (r f : Byte) : (s.writeResultThenFlag x r f).mem = s.mem := rfl
@[simp] theorem State.writeResultThenFlag_v (s : State) (x : Reg) (r f : Byte) : (s.writeResultThenFlag x r f).v = (s.v.set x r).set regVF f := rfl
@[simp] theorem State.writeResultThenFlag_i (s : State) (x : Reg) (r f : Byte) : (s.writeResultThenFlag x r f).i = s.i := rfl
@[simp] theorem State.writeResultThenFlag_pc (s : State) (x : Reg) (r f : Byte) : (s.writeResultThenFlag x r f).pc = s.pc := rfl
@[simp] theorem State.writeResultThenFlag_stack (s : State) (x : Reg) (r f : Byte) : (s.writeResultThenFlag x r f).stack = s.stack := rfl
@[simp] theorem State.writeResultThenFlag_dt (s : State) (x : Reg) (r f : Byte) : (s.writeResultThenFlag x r f).dt = s.dt := rfl
@[simp] theorem State.writeResultThenFlag_st (s : State) (x : Reg) (r f : Byte) : (s.writeResultThenFlag x r f).st = s.st := rfl
@[simp] theorem State.writeResultThenFlag_fb (s : State) (x : Reg) (r f : Byte) : (s.writeResultThenFlag x r f).fb = s.fb := rfl
@[simp] theorem State.writeResultThenFlag_key (s : State) (x : Reg) (r f : Byte) : (s.writeResultThenFlag x r f).key = s.key := rfl
@[simp] theorem State.writeResultThenFlag_redraw (s : State) (x : Reg) (r f : Byte) : (s.writeResultThenFlag x r f).redraw = s.redraw := rfl
@[simp] theorem State.writeResultThenFlag_waiting (s : State) (x : Reg) (r f : Byte) : (s.writeResultThenFlag x r f).waiting = s.waiting := rfl
@[simp] theorem State.writeResultThenFlag_waitReg (s : State) (x : Reg) (r f : Byte) : (s.writeResultThenFlag x r f).waitReg = s.waitReg := rfl
@[simp] theorem State.writeResultThenFlag_fault (s : State) (x : Reg) (r f : Byte) : (s.writeResultThenFlag x r f).fault = s.fault := rfl
@[simp] theorem State.writeResultThenFlag_draws (s : State) (x : Reg) (r f : Byte) : (s.writeResultThenFlag x r f).draws = s.draws := rfl

/-! ## `decayTimers` -/

@[simp] theorem decayTimers_mem (s : State) : (decayTimers s).mem = s.mem := rfl
@[simp] theorem decayTimers_v (s : State) : (decayTimers s).v = s.v := rfl
@[simp] theorem decayTimers_i (s : State) : (decayTimers s).i = s.i := rfl
@[simp] theorem decayTimers_pc (s : State) : (decayTimers s).pc = s.pc := rfl
@[simp] theorem decayTimers_stack (s : State) : (decayTimers s).stack = s.stack := rfl
@[simp] theorem decayTimers_dt (s : State) : (decayTimers s).dt = decayTimer s.dt := rfl
@[simp] theorem decayTimers_st (s : State) : (decayTimers s).st = decayTimer s.st := rfl
@[simp] theorem decayTimers_fb (s : State) : (decayTimers s).fb = s.fb := rfl
@[simp] theorem decayTimers_key (s : State) : (decayTimers s).key = s.key := rfl
@[simp] theorem decayTimers_redraw (s : State) : (decayTimers s).redraw = s.redraw := rfl
@[simp] theorem decayTimers_waiting (s : State) : (decayTimers s).waiting = s.waiting := rfl
@[simp] theorem decayTimers_waitReg (s : State) : (decayTimers s).waitReg = s.waitReg := rfl
@[simp] theorem decayTimers_fault (s : State) : (decayTimers s).fault = s.fault := rfl
@[simp] theorem decayTimers_draws (s : State) : (decayTimers s).draws = s.draws := rfl

/-! ## `State.advanceSkip`: only pc, in both cases -/

/-- A skip as one update of pc. -/
theorem State.advanceSkip_eq (s : State) (taken : Bool) :
    s.advanceSkip taken = { s with pc := if taken then s.pc + 4#16 else s.pc + 2#16 } := by
  cases taken <;> rfl

@[simp] theorem State.advanceSkip_mem (s : State) (taken : Bool) : (s.advanceSkip taken).mem = s.mem := by rw [advanceSkip_eq]
@[simp] theorem State.advanceSkip_v (s : State) (taken : Bool) : (s.advanceSkip taken).v = s.v := by rw [advanceSkip_eq]
@[simp] theorem State.advanceSkip_i (s : State) (taken : Bool) : (s.advanceSkip taken).i = s.i := by rw [advanceSkip_eq]
@[simp] theorem State.advanceSkip_pc (s : State) (taken : Bool) :
    (s.advanceSkip taken).pc = if taken then s.pc + 4#16 else s.pc + 2#16 := by rw [advanceSkip_eq]
@[simp] theorem State.advanceSkip_stack (s : State) (taken : Bool) : (s.advanceSkip taken).stack = s.stack := by rw [advanceSkip_eq]
@[simp] theorem State.advanceSkip_dt (s : State) (taken : Bool) : (s.advanceSkip taken).dt = s.dt := by rw [advanceSkip_eq]
@[simp] theorem State.advanceSkip_st (s : State) (taken : Bool) : (s.advanceSkip taken).st = s.st := by rw [advanceSkip_eq]
@[simp] theorem State.advanceSkip_fb (s : State) (taken : Bool) : (s.advanceSkip taken).fb = s.fb := by rw [advanceSkip_eq]
@[simp] theorem State.advanceSkip_key (s : State) (taken : Bool) : (s.advanceSkip taken).key = s.key := by rw [advanceSkip_eq]
@[simp] theorem State.advanceSkip_redraw (s : State) (taken : Bool) : (s.advanceSkip taken).redraw = s.redraw := by rw [advanceSkip_eq]
@[simp] theorem State.advanceSkip_waiting (s : State) (taken : Bool) : (s.advanceSkip taken).waiting = s.waiting := by rw [advanceSkip_eq]
@[simp] theorem State.advanceSkip_waitReg (s : State) (taken : Bool) : (s.advanceSkip taken).waitReg = s.waitReg := by rw [advanceSkip_eq]
@[simp] theorem State.advanceSkip_fault (s : State) (taken : Bool) : (s.advanceSkip taken).fault = s.fault := by rw [advanceSkip_eq]
@[simp] theorem State.advanceSkip_draws (s : State) (taken : Bool) : (s.advanceSkip taken).draws = s.draws := by rw [advanceSkip_eq]

/-! ## Two updates in a row -/

/-- A register write commutes with the default advance. -/
theorem State.advance_writeV (s : State) (x : Reg) (b : Byte) : s.advance.writeV x b = (s.writeV x b).advance := rfl

/-- Reading a register does not see the default advance. -/
@[simp] theorem State.readV_advance (s : State) (x : Reg) : s.advance.readV x = s.readV x := rfl

/-- A register read after a register write. -/
theorem State.readV_writeV (s : State) (x r : Reg) (b : Byte) :
    (s.writeV x b).readV r = if x = r then b else s.readV r := by
  simp only [State.readV, State.writeV, Fin.getElem_fin, Vector.getElem_set, Fin.ext_iff]

/-- The register just written holds the value. -/
@[simp] theorem State.readV_writeV_self (s : State) (x : Reg) (b : Byte) : (s.writeV x b).readV x = b := by
  simp [State.readV_writeV]

/-- R22: after a result and its flag, VF holds the flag whatever the destination. -/
@[simp] theorem State.readV_writeResultThenFlag_vf (s : State) (x : Reg) (r f : Byte) :
    (s.writeResultThenFlag x r f).readV regVF = f := by
  simp [State.writeResultThenFlag]

/-- R22: a destination other than VF holds the result. -/
theorem State.readV_writeResultThenFlag_dest (s : State) (x : Reg) (r f : Byte) (hx : x ≠ regVF) :
    (s.writeResultThenFlag x r f).readV x = r := by
  simp [State.writeResultThenFlag, State.readV_writeV, Ne.symm hx]

/-- Every register but Vx and VF is as before. -/
theorem State.readV_writeResultThenFlag_other (s : State) (x y : Reg) (r f : Byte) (hx : y ≠ x) (hf : y ≠ regVF) :
    (s.writeResultThenFlag x r f).readV y = s.readV y := by
  simp [State.writeResultThenFlag, State.readV_writeV, Ne.symm hx, Ne.symm hf]

end Sys2Proof.Machine
end

