-- ==== Sys2Proof/Laws/Registers.lean ====
section
/-! SUPPORT. The laws of the register list operations of FX55 and FX65, of the stack and of the keys. -/

namespace Sys2Proof.Machine

/-- How many bytes FX55 stores. -/
@[simp] theorem State.length_readVUpTo (s : State) (x : Reg) : (s.readVUpTo x).length = x.val + 1 := by
  have := x.isLt
  simp only [State.readVUpTo, List.length_take, Vector.length_toList]
  omega

/-- The k-th byte FX55 stores is V[k]. -/
theorem State.getD_readVUpTo (s : State) (x k : Reg) (hk : k ≤ x) (d : Byte) :
    (s.readVUpTo x).getD k.val d = s.readV k := by
  have h1 := k.isLt
  have h2 : k.val ≤ x.val := hk
  rw [List.getD_eq_getElem _ _ (by rw [State.length_readVUpTo]; omega)]
  simp [State.readVUpTo, State.readV]

/-- A register after FX65's writes: the byte of its place in the list, else as before. -/
theorem getElem_writeRegsFrom (v : Vector Byte 16) (k : Nat) (bs : List Byte) (r : Reg) :
    (writeRegsFrom v k bs)[r.val] = if k ≤ r.val ∧ r.val < k + bs.length then bs.getD (r.val - k) 0#8 else v[r.val] := by
  induction bs generalizing v k with
  | nil => rw [writeRegsFrom, if_neg (by simp only [List.length_nil]; omega)]
  | cons b bs ih =>
    rw [writeRegsFrom, ih, List.length_cons, Vector.getElem_setIfInBounds]
    by_cases hk : k = r.val
    · subst hk
      rw [if_neg (by omega), if_pos rfl, if_pos (by omega), Nat.sub_self, List.getD_cons_zero]
    · rw [if_neg hk]
      by_cases hin : k ≤ r.val ∧ r.val < k + (bs.length + 1)
      · rw [if_pos (by omega), if_pos hin, show r.val - k = (r.val - (k + 1)) + 1 by omega, List.getD_cons_succ]
      · rw [if_neg (by omega), if_neg hin]

/-- Registers V0 to Vx after loading x + 1 bytes from memory, and the others as before. -/
theorem getElem_writeRegsFrom_readBytes (v : Vector Byte 16) (m : Memory) (a : Nat) (x r : Reg) :
    (writeRegsFrom v 0 (m.readBytes a (x.val + 1)))[r.val] = if r ≤ x then m.read (a + r.val) else v[r.val] := by
  rw [getElem_writeRegsFrom, Memory.length_readBytes]
  by_cases h : r ≤ x
  · have h' : r.val ≤ x.val := h
    rw [if_pos (by omega), if_pos h, Memory.getD_readBytes _ _ _ _ (by omega), Nat.sub_zero]
  · have h' : ¬ r.val ≤ x.val := h
    rw [if_neg (by omega), if_neg h]

/-- A push onto a stack that is not full (R26). -/
theorem pushStack_room {stack : List Word} {v : Word} (h : stack.length < stackDepth) :
    pushStack stack v = some (stack ++ [v]) := if_neg (by omega)

/-- A push onto a full stack (R26). -/
theorem pushStack_full {stack : List Word} {v : Word} (h : stackDepth ≤ stack.length) :
    pushStack stack v = none := if_pos h

/-- What a push that succeeds leaves. -/
theorem pushStack_eq_some {stack rest : List Word} {v : Word} (h : pushStack stack v = some rest) :
    stack.length < stackDepth ∧ rest = stack ++ [v] := by
  unfold pushStack at h
  split at h
  · cases h
  · exact ⟨by omega, (Option.some.inj h).symm⟩

/-- A pop takes the last entry (R26). -/
@[simp] theorem popStack_append (rest : List Word) (top : Word) : popStack (rest ++ [top]) = some (top, rest) := by
  simp [popStack]

/-- A pop of an empty stack (R26). -/
@[simp] theorem popStack_nil : popStack [] = none := rfl

/-- What a pop that succeeds has taken. -/
theorem popStack_eq_some {stack rest : List Word} {top : Word} (h : popStack stack = some (top, rest)) :
    stack = rest ++ [top] := by
  rcases List.eq_nil_or_concat stack with rfl | ⟨r, t, rfl⟩
  · cases h
  · rw [List.concat_eq_append, popStack_append] at h
    cases h
    exact List.concat_eq_append

/-- A pop fails only on the empty stack. -/
theorem popStack_eq_none {stack : List Word} : popStack stack = none ↔ stack = [] := by
  rcases List.eq_nil_or_concat stack with rfl | ⟨r, t, rfl⟩
  · simp
  · rw [List.concat_eq_append, popStack_append]; simp

/-- A key's flag by its number. -/
theorem State.keyDown_eq (s : State) (k : Reg) : s.keyDown k.val = s.key[k.val] := by
  rw [State.keyDown, List.getD_eq_getElem _ _ (by simp)]
  simp

/-- The scan of a blocked cycle finds nothing exactly when no key is set. -/
theorem lowestKeyDown_eq_none {s : State} : lowestKeyDown s = none ↔ ∀ k : Reg, s.keyDown k.val = false := by
  unfold lowestKeyDown
  rw [List.find?_eq_none]
  constructor
  · intro h k
    have := h k.val (by have := k.isLt; simp; omega)
    simpa using this
  · intro h k hk
    have hlt : k < 16 := by simp at hk; omega
    simpa using h ⟨k, hlt⟩

/-- The scan of a blocked cycle finds the lowest set key (R92). -/
theorem lowestKeyDown_eq_some {s : State} {k : Reg} (hk : s.keyDown k.val = true)
    (hlow : ∀ j : Reg, j < k → s.keyDown j.val = false) : lowestKeyDown s = some k.val := by
  have hsplit : [0, 1, 2, 3, 4, 5, 6, 7, 8, 9, 10, 11, 12, 13, 14, 15] = List.range 16 := rfl
  unfold lowestKeyDown
  rw [hsplit, List.find?_range_eq_some]
  refine ⟨hk, List.mem_range.2 k.isLt, fun j hj => ?_⟩
  simpa using hlow ⟨j, by have := k.isLt; omega⟩ hj

end Sys2Proof.Machine
end

