-- ==== Sys2Proof/Laws/Step.lean ====
section
/-! SUPPORT. Once and for all what each shared operation of a cycle can do, and what a step can do: the
provers cite these instead of unfolding the cycle. -/

namespace Sys2Proof.Machine

/-- A fetch inside memory answers the two bytes at pc (R55). -/
theorem State.fetch_inside {s : State} (h : s.pc.toNat + 2 ≤ memSize) :
    s.fetch = .bytes [s.mem.read s.pc.toNat, s.mem.read (s.pc.toNat + 1)] := by
  unfold State.fetch
  rw [firstOutOfRange_eq_none.2 (.inr h)]
  rfl

/-- A fetch that leaves memory answers the lowest address outside it (R55). -/
theorem State.fetch_outside {s : State} (h : memSize < s.pc.toNat + 2) :
    s.fetch = .outOfRange (max s.pc.toNat memSize) := by
  unfold State.fetch
  rw [firstOutOfRange_eq_some.2 ⟨⟨by omega, h⟩, rfl⟩]

/-- The whole of what a key skip can do (R120, R121). -/
theorem skipOnKey_cases (op : Word) (x : Reg) (wanted : Bool) (s : State) :
    ((s.readV x).toNat ≤ 15 ∧ skipOnKey op x wanted s = s.advanceSkip (s.keyDown (s.readV x).toNat == wanted)) ∨
    (15 < (s.readV x).toNat ∧
      skipOnKey op x wanted s = s.raise .keyIndexOutOfRange (some op) (some (s.readV x).toNat)) := by
  unfold skipOnKey
  split
  · right; exact ⟨‹_›, rfl⟩
  · left; exact ⟨by omega, rfl⟩

/-- The whole of what an illegal word can do (R190). -/
theorem illegalWord_cases (c : Config) (op : Word) (s : State) :
    (c.illegalPolicy = .fault ∧ illegalWord c op s = s.raise .illegalInstruction (some op) (some op.toNat)) ∨
    (c.illegalPolicy = .nop ∧ illegalWord c op s = s.advance) := by
  unfold illegalWord
  cases c.illegalPolicy
  · exact .inl ⟨rfl, rfl⟩
  · exact .inr ⟨rfl, rfl⟩

/-- The whole of what the key scan can do (R92): nothing, or the lowest set key's number into the waiting
register and the end of the wait. -/
theorem scanKeys_cases (s : State) :
    ((∀ k : Reg, s.keyDown k.val = false) ∧ scanKeys s = s) ∨
    ∃ k : Reg, s.keyDown k.val = true ∧ (∀ j : Reg, j < k → s.keyDown j.val = false) ∧
      scanKeys s = { s.writeV s.waitReg (BitVec.ofNat 8 k.val) with waiting := false } := by
  by_cases h : ∀ k : Reg, s.keyDown k.val = false
  · left
    refine ⟨h, ?_⟩
    simp [scanKeys, lowestKeyDown_eq_none.2 h]
  · right
    have hex : ∃ n, ∃ hn : n < 16, s.keyDown n = true := by
      obtain ⟨k, hk⟩ := not_forall.1 h
      exact ⟨k.val, k.isLt, by simpa using hk⟩
    obtain ⟨hn, hdown⟩ := Nat.find_spec hex
    refine ⟨⟨Nat.find hex, hn⟩, hdown, fun j hj => ?_, ?_⟩
    · have := Nat.find_min hex (m := j.val) hj
      have hj16 := j.isLt
      simpa [hj16] using this
    · have hfind : lowestKeyDown s = some (Nat.find hex) :=
        lowestKeyDown_eq_some (k := ⟨Nat.find hex, hn⟩) hdown (fun j hj => by
          have := Nat.find_min hex (m := j.val) hj
          have hj16 := j.isLt
          simpa [hj16] using this)
      simp [scanKeys, hfind]

/-- The end of a cycle that raised no fault is the decay (R96). -/
theorem endCycle_ok {t : State} (h : t.fault = none) : endCycle t = decayTimers t := by
  simp [endCycle, h]

/-- The end of a cycle that raised a fault changes nothing (R180). -/
theorem endCycle_fault {t : State} {f : FaultRecord} (h : t.fault = some f) : endCycle t = t := by
  simp [endCycle, h]

/-- The fault status passes through the end of a cycle. -/
@[simp] theorem endCycle_fault_field (t : State) : (endCycle t).fault = t.fault := by
  unfold endCycle; split <;> rfl

/-- A faulted machine stays as it is (R181). -/
theorem step_faulted {s : State} {f : FaultRecord} (h : s.fault = some f) : step s = .next s := by
  simp [step, h]

/-- A blocked machine scans its keys (R92). -/
theorem step_blocked {s : State} (hf : s.fault = none) (hw : s.waiting = true) : step s = .next (blockedCycle s) := by
  simp [step, hf, hw]

/-- A running machine runs one cycle (R94). -/
theorem step_running {s : State} (hf : s.fault = none) (hw : s.waiting = false) : step s = runCycle s := by
  simp [step, hf, hw]

/-- A running cycle outside memory (R55). -/
theorem runCycle_outside {s : State} (h : memSize < s.pc.toNat + 2) :
    runCycle s = .next (fetchFaultCycle (max s.pc.toNat memSize) s) := by
  unfold runCycle
  rw [State.fetch_outside h]

/-- A running cycle that fetches an instruction (R94). -/
theorem runCycle_instr {s : State} {i : Instr} (h : s.pc.toNat + 2 ≤ memSize) (hd : decodeWord (fetchedWord s) = .instr i) :
    runCycle s = finishCycle (exec i s) := by
  unfold runCycle
  rw [State.fetch_inside h]
  simp only [decode]
  rw [show wordOfBytes (s.mem.read s.pc.toNat) (s.mem.read (s.pc.toNat + 1)) = fetchedWord s from rfl, hd]

/-- A running cycle that fetches an illegal word (R95, R190). -/
theorem runCycle_illegal {s : State} {op : Word} (h : s.pc.toNat + 2 ≤ memSize)
    (hd : decodeWord (fetchedWord s) = .illegal op) : runCycle s = .next (illegalCycle activeConfig op s) := by
  unfold runCycle
  rw [State.fetch_inside h]
  simp only [decode]
  rw [show wordOfBytes (s.mem.read s.pc.toNat) (s.mem.read (s.pc.toNat + 1)) = fetchedWord s from rfl, hd]

/-- A word always decodes to an instruction or is itself illegal (R74, R81). -/
theorem decodeWord_cases (op : Word) : (∃ i, decodeWord op = .instr i) ∨ decodeWord op = .illegal op := by
  unfold decodeWord
  split
  all_goals first
    | exact .inl ⟨_, rfl⟩
    | exact .inr rfl
    | (unfold decodeFamily0; split <;> first | exact .inl ⟨_, rfl⟩ | (split <;> exact .inl ⟨_, rfl⟩))
    | (unfold decodeFamily8; split <;> first | exact .inl ⟨_, rfl⟩ | exact .inr rfl)
    | (unfold decodeFamilyE; repeat' split
       all_goals first | exact .inl ⟨_, rfl⟩ | exact .inr rfl)
    | (unfold decodeFamilyF; repeat' split
       all_goals first | exact .inl ⟨_, rfl⟩ | exact .inr rfl)
    | (split <;> first | exact .inl ⟨_, rfl⟩ | exact .inr rfl)

/-- What the end of a cycle answers from an instruction's outcome. -/
theorem finishCycle_eq_next {o : Host.Outcome State Fault Refusal} {t : State} (h : finishCycle o = .next t) :
    ∃ u, o = .next u ∧ t = endCycle u := by
  cases o with
  | next u => exact ⟨u, rfl, (Host.Outcome.next.inj h).symm⟩
  | fault r => cases r
  | refused r => cases h

/-- EVERYTHING A STEP CAN DO, guards included: nothing (faulted), a blocked cycle, a fetch fault, an
illegal word, or one instruction and the end of its cycle. -/
theorem step_cases {s t : State} (h : step s = .next t) :
    (∃ f, s.fault = some f ∧ t = s) ∨
    (s.fault = none ∧ s.waiting = true ∧ t = blockedCycle s) ∨
    (s.fault = none ∧ s.waiting = false ∧ memSize < s.pc.toNat + 2 ∧ t = fetchFaultCycle (max s.pc.toNat memSize) s) ∨
    (s.fault = none ∧ s.waiting = false ∧ s.pc.toNat + 2 ≤ memSize ∧
      decodeWord (fetchedWord s) = .illegal (fetchedWord s) ∧ t = illegalCycle activeConfig (fetchedWord s) s) ∨
    (s.fault = none ∧ s.waiting = false ∧ s.pc.toNat + 2 ≤ memSize ∧
      ∃ i u, decodeWord (fetchedWord s) = .instr i ∧ exec i s = .next u ∧ t = endCycle u) := by
  rcases hf : s.fault with _ | f
  · rcases hw : s.waiting
    · rw [step_running hf hw] at h
      by_cases hpc : s.pc.toNat + 2 ≤ memSize
      · rcases decodeWord_cases (fetchedWord s) with ⟨i, hd⟩ | hd
        · rw [runCycle_instr hpc hd] at h
          obtain ⟨u, hu, ht⟩ := finishCycle_eq_next h
          exact .inr (.inr (.inr (.inr ⟨rfl, rfl, hpc, i, u, hd, hu, ht⟩)))
        · rw [runCycle_illegal hpc hd] at h
          exact .inr (.inr (.inr (.inl ⟨rfl, rfl, hpc, hd, (Host.Outcome.next.inj h).symm⟩)))
      · rw [runCycle_outside (by omega)] at h
        exact .inr (.inr (.inl ⟨rfl, rfl, by omega, (Host.Outcome.next.inj h).symm⟩))
    · rw [step_blocked hf hw] at h
      exact .inr (.inl ⟨rfl, rfl, (Host.Outcome.next.inj h).symm⟩)
  · rw [step_faulted hf] at h
    exact .inl ⟨f, rfl, (Host.Outcome.next.inj h).symm⟩

end Sys2Proof.Machine
end

