-- ==== Sys2Proof/Laws/Frames.lean ====
section
/-! SUPPORT. Frames of the shared operations, in the words of Safety.lean: which registers, pieces and
bytes each of them keeps. -/

namespace Sys2Proof.Machine

/-- A register write keeps every other register. -/
theorem keepsRegsBut_writeV (s : State) (x : Reg) (b : Byte) : KeepsRegsBut [x] s (s.writeV x b) := by
  intro r hr
  rw [State.readV_writeV, if_neg (fun h => hr (by simp [h]))]

/-- A result and its flag keep every register but the destination and VF (R22). -/
theorem keepsRegsBut_writeResultThenFlag (s : State) (x : Reg) (r f : Byte) :
    KeepsRegsBut [x, 15] s (s.writeResultThenFlag x r f) := by
  intro y hy
  simp only [List.mem_cons, List.not_mem_nil, or_false, not_or] at hy
  exact State.readV_writeResultThenFlag_other s x y r f hy.1 hy.2

/-- Equal register files keep every register. -/
theorem keepsRegsBut_of_eq {s t : State} (h : t.v = s.v) (l : List Reg) : KeepsRegsBut l s t := by
  intro r _
  simp [State.readV, h]

/-- An update of registers, pc and the model's own counter keeps every piece. -/
theorem keepsBut_of_regs_pc (s : State) (v : Vector Byte 16) (pc : Word) (d : Nat) :
    KeepsBut [] s { s with v := v, pc := pc, draws := d } := by
  intro p _
  cases p <;> first | rfl | exact fun _ => rfl | exact ⟨rfl, rfl⟩

/-- Frames compose. -/
theorem KeepsRegsBut.trans {l : List Reg} {s t u : State} (h : KeepsRegsBut l s t) (h' : KeepsRegsBut l t u) :
    KeepsRegsBut l s u := fun r hr => (h' r hr).trans (h r hr)

/-- One piece through two updates. -/
theorem Piece.Kept.trans {p : Piece} {s t u : State} (h : p.Kept s t) (h' : p.Kept t u) : p.Kept s u := by
  cases p
  case memory => exact fun a => (h' a).trans (h a)
  case wait => exact ⟨h'.1.trans h.1, h'.2.trans h.2⟩
  all_goals exact Eq.trans h' h

/-- Frames compose. -/
theorem KeepsBut.trans {l : List Piece} {s t u : State} (h : KeepsBut l s t) (h' : KeepsBut l t u) :
    KeepsBut l s u := fun p hp => (h p hp).trans (h' p hp)

/-- A frame that lists more is weaker. -/
theorem KeepsBut.mono {l l' : List Piece} {s t : State} (h : KeepsBut l s t) (hl : ∀ p ∈ l, p ∈ l') :
    KeepsBut l' s t := fun p hp => h p fun hm => hp (hl p hm)

/-- Every state keeps itself. -/
theorem KeepsBut.refl (l : List Piece) (s : State) : KeepsBut l s s := by
  intro p _
  cases p <;> first | rfl | exact fun _ => rfl | exact ⟨rfl, rfl⟩

/-- A write of bytes inside memory keeps every other byte. -/
theorem keepsBytesBut_writeBytes {s t : State} {a : Nat} {bs : List Byte} (hm : s.mem.wf = true)
    (ha : a + bs.length ≤ memSize) (ht : t.mem = s.mem.writeBytes a bs) : KeepsBytesBut a bs.length s t := by
  intro b hb
  rw [ht, Memory.read_writeBytes hm bs ha, if_neg hb]

/-- A running state whose word at pc decodes to `i` runs `i`. -/
theorem State.runs_iff {s : State} {i : Instr} :
    s.Runs i ↔ s.fault = none ∧ s.waiting = false ∧ s.pc.toNat + 2 ≤ memSize ∧ decodeWord (fetchedWord s) = .instr i := by
  constructor
  · rintro ⟨⟨hf, hw⟩, hpc, hd⟩
    exact ⟨hf, hw, hpc, hd⟩
  · rintro ⟨hf, hw, hpc, hd⟩
    exact ⟨⟨hf, hw⟩, hpc, hd⟩

/-- The step of a state that runs `i` is `i`'s meaning and the end of the cycle. -/
theorem step_of_runs {s : State} {i : Instr} (h : s.Runs i) : step s = finishCycle (exec i s) := by
  obtain ⟨hf, hw, hpc, hd⟩ := State.runs_iff.1 h
  rw [step_running hf hw, runCycle_instr hpc hd]

/-- One unit of decay, as arithmetic (R96). -/
theorem toNat_decayTimer (b : Byte) : (decayTimer b).toNat = b.toNat - 1 := by
  unfold decayTimer
  split
  · rename_i h; simp [h]
  · rename_i h
    have h0 : b.toNat ≠ 0 := fun h' => h (BitVec.eq_of_toNat_eq (by simpa using h'))
    have := b.isLt
    rw [BitVec.toNat_sub]
    simp
    omega

/-- One unit of decay, as a byte (R96). -/
theorem decayTimer_eq (b : Byte) : decayTimer b = BitVec.ofNat 8 (b.toNat - 1) := by
  apply BitVec.eq_of_toNat_eq
  have := b.isLt
  rw [toNat_decayTimer, BitVec.toNat_ofNat, Nat.mod_eq_of_lt (by omega)]

/-! ## The host's key accessors (R34) -/

/-- After one key is set the host reads it as set, and every other key as before. -/
@[simp] theorem readKey_setKey (s : State) (k j : Reg) (down : Bool) :
    readKey j (setKey k down s) = if k = j then down else readKey j s := by
  simp only [readKey, setKey, Fin.getElem_fin, Vector.getElem_set, Fin.ext_iff]

/-- After all keys are set the host reads what it set. -/
@[simp] theorem readKeys_setKeys (s : State) (keys : Vector Bool 16) : readKeys (setKeys keys s) = keys := rfl

/-! ## Arithmetic results as numbers (R137) -/

/-- A flag as a number. -/
@[simp] theorem toNat_flagByte (b : Bool) : (flagByte b).toNat = if b then 1 else 0 := by
  cases b <;> rfl

/-- The sum modulo 256. -/
theorem toNat_sumByte (a b : Byte) : (sumByte a b).toNat = (a.toNat + b.toNat) % 256 := by
  simp [sumByte]

/-- The difference modulo 256. -/
theorem toNat_diffByte (a b : Byte) : ((diffByte a b).toNat : Int) = ((a.toNat : Int) - b.toNat) % 256 := by
  have h : (0 : Int) ≤ ((a.toNat : Int) - b.toNat) % 256 := Int.emod_nonneg _ (by decide)
  rw [diffByte, BitVec.toNat_ofInt]
  simpa using Int.toNat_of_nonneg h

/-- Half a byte. -/
theorem toNat_halfByte (b : Byte) : (halfByte b).toNat = b.toNat / 2 := by
  have := b.isLt
  rw [halfByte, BitVec.toNat_ofNat, Nat.mod_eq_of_lt (by omega)]

/-- Twice a byte, modulo 256. -/
theorem toNat_doubleByte (b : Byte) : (doubleByte b).toNat = b.toNat * 2 % 256 := by
  simp [doubleByte]

/-- The bit SHR shifts out. -/
theorem toNat_lowBitFlag (b : Byte) : (lowBitFlag b).toNat = b.toNat % 2 := by
  rw [lowBitFlag, toNat_flagByte, BitVec.getLsbD, Nat.testBit_zero]
  have := Nat.mod_two_eq_zero_or_one b.toNat
  rcases this with h | h <;> simp [h]

/-- The bit SHL shifts out. -/
theorem toNat_highBitFlag (b : Byte) : (highBitFlag b).toNat = b.toNat / 128 := by
  have := b.isLt
  rw [highBitFlag, toNat_flagByte, BitVec.getLsbD, Nat.testBit_eq_decide_div_mod_eq]
  by_cases h : b.toNat / 2 ^ 7 % 2 = 1
  · simp only [h, decide_true, if_true]; omega
  · simp only [h, decide_false]; simp; omega

end Sys2Proof.Machine
end

