-- ==== Sys2Proof/Laws/Exec.lean ====
section
/-! SUPPORT. The pieces of state that each instruction may write, and the frame of `exec` and of `step` over
all instructions at once: the whole-machine rules follow from these two. -/

namespace Sys2Proof.Machine

/-- The pieces other than pc and the general registers that an instruction may write when it raises no
fault (the "writes" of each instruction's rule, under the spec's parameters). -/
def writtenPieces : Instr → List Piece
  | .cls => [.screen, .redraw]
  | .ret => [.stack]
  | .sys _ => []
  | .jp _ => []
  | .call _ => [.stack]
  | .seImm _ _ => []
  | .sneImm _ _ => []
  | .seReg _ _ => []
  | .ldImm _ _ => []
  | .addImm _ _ => []
  | .ldReg _ _ => []
  | .orReg _ _ => []
  | .andReg _ _ => []
  | .xorReg _ _ => []
  | .addReg _ _ => []
  | .sub _ _ => []
  | .shr _ _ => []
  | .subn _ _ => []
  | .shl _ _ => []
  | .sneReg _ _ => []
  | .ldI _ => [.index]
  | .jpV0 _ => []
  | .rnd _ _ => []
  | .drw _ _ _ => [.screen, .redraw]
  | .skp _ => []
  | .sknp _ => []
  | .ldVxDT _ => []
  | .ldVxK _ => [.wait]
  | .ldDTVx _ => [.delay]
  | .ldSTVx _ => [.sound]
  | .addIVx _ => [.index]
  | .ldFVx _ => [.index]
  | .ldBVx _ => [.memory]
  | .ldMemVx _ => [.memory]
  | .ldVxMem _ => []

/-- What an instruction does to the state as a whole: it writes no piece but its own, or it raised a fault
and did nothing else (R180). -/
theorem exec_frame {i : Instr} {s t : State} (h : exec i s = .next t) :
    KeepsBut (writtenPieces i) s t ∨ ∃ k op info, t = s.raise k op info := by
  cases i
  case sys nnn => cases h; exact .inr ⟨_, _, _, rfl⟩
  case ret =>
    change execRet s = _ at h
    unfold execRet at h
    split at h
    · cases h; left; intro p hp; cases p <;> first | rfl | exact fun _ => rfl | exact ⟨rfl,rfl⟩ | exact absurd (by decide) hp
    · cases h; exact .inr ⟨_, _, _, rfl⟩
  case call nnn =>
    change execCall nnn s = _ at h
    unfold execCall at h
    split at h
    · cases h; left; intro p hp; cases p <;> first | rfl | exact fun _ => rfl | exact ⟨rfl,rfl⟩ | exact absurd (by simp [writtenPieces]) hp
    · cases h; exact .inr ⟨_, _, _, rfl⟩
  case seImm x nn => cases h; left; rw [State.advanceSkip_eq]; exact keepsBut_of_regs_pc s _ _ _
  case sneImm x nn => cases h; left; rw [State.advanceSkip_eq]; exact keepsBut_of_regs_pc s _ _ _
  case seReg x nn => cases h; left; rw [State.advanceSkip_eq]; exact keepsBut_of_regs_pc s _ _ _
  case sneReg x nn => cases h; left; rw [State.advanceSkip_eq]; exact keepsBut_of_regs_pc s _ _ _
  case skp x =>
    cases h
    rcases skipOnKey_cases (encode (.skp x)) x true s with ⟨-, h⟩ | ⟨-, h⟩
    · rw [h]; left; rw [State.advanceSkip_eq]; exact keepsBut_of_regs_pc s _ _ _
    · exact .inr ⟨_, _, _, h⟩
  case sknp x =>
    cases h
    rcases skipOnKey_cases (encode (.sknp x)) x false s with ⟨-, h⟩ | ⟨-, h⟩
    · rw [h]; left; rw [State.advanceSkip_eq]; exact keepsBut_of_regs_pc s _ _ _
    · exact .inr ⟨_, _, _, h⟩
  case drw x y n =>
    cases h
    rcases State.checked_cases s (encode (.drw x y n)) (effectiveAddr s 0) n.toNat _ with ⟨-, h⟩ | ⟨-, h⟩
    · rw [h]; left; intro p hp; cases p <;> first | rfl | exact fun _ => rfl | exact ⟨rfl,rfl⟩ | exact absurd (by simp [writtenPieces]) hp
    · exact .inr ⟨_, _, _, h⟩
  case ldBVx x =>
    cases h
    rcases State.checked_cases s (encode (.ldBVx x)) (effectiveAddr s 0) 3 _ with ⟨-, h⟩ | ⟨-, h⟩
    · rw [h]; left; intro p hp; cases p <;> first | rfl | exact ⟨rfl,rfl⟩ | exact absurd (by simp [writtenPieces]) hp
    · exact .inr ⟨_, _, _, h⟩
  case ldMemVx x =>
    cases h
    rcases State.checked_cases s (encode (.ldMemVx x)) (effectiveAddr s 0) (x.val+1) _ with ⟨-, h⟩ | ⟨-, h⟩
    · rw [h]; left; intro p hp; cases p <;> first | rfl | exact ⟨rfl,rfl⟩ | exact absurd (by simp [writtenPieces]) hp
    · exact .inr ⟨_, _, _, h⟩
  case ldVxMem x =>
    cases h
    rcases State.checked_cases s (encode (.ldVxMem x)) (effectiveAddr s 0) (x.val+1) _ with ⟨-, h⟩ | ⟨-, h⟩
    · rw [h]; left; exact keepsBut_of_regs_pc s _ _ _
    · exact .inr ⟨_, _, _, h⟩
  all_goals (cases h; left; intro p hp; cases p <;> first | rfl | exact fun _ => rfl | exact ⟨rfl,rfl⟩ | exact absurd (by simp [writtenPieces]) hp)

/-- A piece that a cycle changes, other than the fault status, the timers and the wait condition, is one that
the cycle's instruction writes. -/
theorem step_frame {s t : State} (h : step s = .next t) (p : Piece) (hp : p ≠ .fault) (hd : p ≠ .delay)
    (hsd : p ≠ .sound) (hw : p ≠ .wait) :
    p.Kept s t ∨ ∃ i, s.Runs i ∧ p ∈ writtenPieces i := by
  have hraise : ∀ k op n, p.Kept s (s.raise k op n) := by
    intro k op n; cases p <;> first | rfl | exact fun _ => rfl | exact ⟨rfl,rfl⟩ | exact absurd rfl hp
  have hdecay : ∀ u, p.Kept u (decayTimers u) := by
    intro u; cases p <;> first | rfl | exact fun _ => rfl | exact ⟨rfl,rfl⟩ | exact absurd rfl hd | exact absurd rfl hsd
  have hend : ∀ u, p.Kept u (endCycle u) := by
    intro u; unfold endCycle; split
    · exact KeepsBut.refl [] u p (by simp)
    · exact hdecay u
  rcases step_cases h with ⟨g, hg, rfl⟩ | ⟨-, hw', rfl⟩ | ⟨-, -, hpc, rfl⟩ | ⟨-, -, hpc, hd, rfl⟩ | ⟨hf, hw', hpc, i, u, hd, hu, rfl⟩
  · exact .inl (KeepsBut.refl [] _ p (by simp))
  · left
    refine Piece.Kept.trans ?_ (hdecay _)
    rcases scanKeys_cases s with ⟨-, h⟩ | ⟨k, -, -, h⟩
    · rw [h]; exact (KeepsBut.refl [] _ p (by simp))
    · rw [h]; cases p <;> first | rfl | exact fun _ => rfl | exact ⟨rfl,rfl⟩ | exact absurd rfl hw
  · exact .inl (hraise _ _ _)
  · exact .inl (Piece.Kept.trans (hraise _ _ _) (hend _))
  · rcases exec_frame hu with hk | ⟨k, op, n, rfl⟩
    · by_cases hm : p ∈ writtenPieces i
      · exact .inr ⟨i, State.runs_iff.2 ⟨hf, hw', hpc, hd⟩, hm⟩
      · exact .inl (Piece.Kept.trans (hk p hm) (hend _))
    · exact .inl (Piece.Kept.trans (hraise _ _ _) (hend _))

end Sys2Proof.Machine
end

