-- ==== Sys2Proof/Laws/PerInstr.lean ====
section
/-! SUPPORT. Family `TableRow`: the word of every instruction carries its row of spec/opcode_table.json, the
fixed bits and every operand field at the place that the table gives it. -/

namespace Sys2Proof.Laws

/-- One field of a row: its lowest bit, its width, its value. -/
structure RowField where
  lo : Nat
  width : Nat
  value : Nat
  deriving DecidableEq, Repr

/-- The row of spec/opcode_table.json: its "fixed" fields, then its operand fields. -/
def rowFields : Instr → List RowField
  | .cls => [⟨0, 16, 0xE0⟩]
  | .ret => [⟨0, 16, 0xEE⟩]
  | .sys nnn => [⟨12, 4, 0x0⟩, ⟨0, 12, nnn.toNat⟩]
  | .jp nnn => [⟨12, 4, 0x1⟩, ⟨0, 12, nnn.toNat⟩]
  | .call nnn => [⟨12, 4, 0x2⟩, ⟨0, 12, nnn.toNat⟩]
  | .seImm x nn => [⟨12, 4, 0x3⟩, ⟨8, 4, x.val⟩, ⟨0, 8, nn.toNat⟩]
  | .sneImm x nn => [⟨12, 4, 0x4⟩, ⟨8, 4, x.val⟩, ⟨0, 8, nn.toNat⟩]
  | .seReg x y => [⟨0, 4, 0x0⟩, ⟨12, 4, 0x5⟩, ⟨8, 4, x.val⟩, ⟨4, 4, y.val⟩]
  | .ldImm x nn => [⟨12, 4, 0x6⟩, ⟨8, 4, x.val⟩, ⟨0, 8, nn.toNat⟩]
  | .addImm x nn => [⟨12, 4, 0x7⟩, ⟨8, 4, x.val⟩, ⟨0, 8, nn.toNat⟩]
  | .ldReg x y => [⟨0, 4, 0x0⟩, ⟨12, 4, 0x8⟩, ⟨8, 4, x.val⟩, ⟨4, 4, y.val⟩]
  | .orReg x y => [⟨0, 4, 0x1⟩, ⟨12, 4, 0x8⟩, ⟨8, 4, x.val⟩, ⟨4, 4, y.val⟩]
  | .andReg x y => [⟨0, 4, 0x2⟩, ⟨12, 4, 0x8⟩, ⟨8, 4, x.val⟩, ⟨4, 4, y.val⟩]
  | .xorReg x y => [⟨0, 4, 0x3⟩, ⟨12, 4, 0x8⟩, ⟨8, 4, x.val⟩, ⟨4, 4, y.val⟩]
  | .addReg x y => [⟨0, 4, 0x4⟩, ⟨12, 4, 0x8⟩, ⟨8, 4, x.val⟩, ⟨4, 4, y.val⟩]
  | .sub x y => [⟨0, 4, 0x5⟩, ⟨12, 4, 0x8⟩, ⟨8, 4, x.val⟩, ⟨4, 4, y.val⟩]
  | .shr x y => [⟨0, 4, 0x6⟩, ⟨12, 4, 0x8⟩, ⟨8, 4, x.val⟩, ⟨4, 4, y.val⟩]
  | .subn x y => [⟨0, 4, 0x7⟩, ⟨12, 4, 0x8⟩, ⟨8, 4, x.val⟩, ⟨4, 4, y.val⟩]
  | .shl x y => [⟨0, 4, 0xE⟩, ⟨12, 4, 0x8⟩, ⟨8, 4, x.val⟩, ⟨4, 4, y.val⟩]
  | .sneReg x y => [⟨0, 4, 0x0⟩, ⟨12, 4, 0x9⟩, ⟨8, 4, x.val⟩, ⟨4, 4, y.val⟩]
  | .ldI nnn => [⟨12, 4, 0xA⟩, ⟨0, 12, nnn.toNat⟩]
  | .jpV0 nnn => [⟨12, 4, 0xB⟩, ⟨0, 12, nnn.toNat⟩]
  | .rnd x nn => [⟨12, 4, 0xC⟩, ⟨8, 4, x.val⟩, ⟨0, 8, nn.toNat⟩]
  | .drw x y n => [⟨12, 4, 0xD⟩, ⟨8, 4, x.val⟩, ⟨4, 4, y.val⟩, ⟨0, 4, n.toNat⟩]
  | .skp x => [⟨0, 8, 0x9E⟩, ⟨12, 4, 0xE⟩, ⟨8, 4, x.val⟩]
  | .sknp x => [⟨0, 8, 0xA1⟩, ⟨12, 4, 0xE⟩, ⟨8, 4, x.val⟩]
  | .ldVxDT x => [⟨0, 8, 0x7⟩, ⟨12, 4, 0xF⟩, ⟨8, 4, x.val⟩]
  | .ldVxK x => [⟨0, 8, 0xA⟩, ⟨12, 4, 0xF⟩, ⟨8, 4, x.val⟩]
  | .ldDTVx x => [⟨0, 8, 0x15⟩, ⟨12, 4, 0xF⟩, ⟨8, 4, x.val⟩]
  | .ldSTVx x => [⟨0, 8, 0x18⟩, ⟨12, 4, 0xF⟩, ⟨8, 4, x.val⟩]
  | .addIVx x => [⟨0, 8, 0x1E⟩, ⟨12, 4, 0xF⟩, ⟨8, 4, x.val⟩]
  | .ldFVx x => [⟨0, 8, 0x29⟩, ⟨12, 4, 0xF⟩, ⟨8, 4, x.val⟩]
  | .ldBVx x => [⟨0, 8, 0x33⟩, ⟨12, 4, 0xF⟩, ⟨8, 4, x.val⟩]
  | .ldMemVx x => [⟨0, 8, 0x55⟩, ⟨12, 4, 0xF⟩, ⟨8, 4, x.val⟩]
  | .ldVxMem x => [⟨0, 8, 0x65⟩, ⟨12, 4, 0xF⟩, ⟨8, 4, x.val⟩]

/-- The word has every field of its row. -/
def TableRow.Statement (i : Instr) : Prop :=
  ∀ f ∈ rowFields i, (encode i).toNat / 2 ^ f.lo % 2 ^ f.width = f.value

theorem TableRow.cls : TableRow.Statement .cls := by
  simp [TableRow.Statement, rowFields, encode]

theorem TableRow.ret : TableRow.Statement .ret := by
  simp [TableRow.Statement, rowFields, encode]

theorem TableRow.sys (nnn : Addr) : TableRow.Statement (.sys nnn) := by
  have := nnn.isLt
  simp [TableRow.Statement, rowFields, encode, toNat_encodeNNN]
  omega

theorem TableRow.jp (nnn : Addr) : TableRow.Statement (.jp nnn) := by
  have := nnn.isLt
  simp [TableRow.Statement, rowFields, encode, toNat_encodeNNN]
  omega

theorem TableRow.call (nnn : Addr) : TableRow.Statement (.call nnn) := by
  have := nnn.isLt
  simp [TableRow.Statement, rowFields, encode, toNat_encodeNNN]
  omega

theorem TableRow.seImm (x : Reg) (nn : Byte) : TableRow.Statement (.seImm x nn) := by
  have := x.isLt
  have := nn.isLt
  simp [TableRow.Statement, rowFields, encode, toNat_encodeXNN]
  omega

theorem TableRow.sneImm (x : Reg) (nn : Byte) : TableRow.Statement (.sneImm x nn) := by
  have := x.isLt
  have := nn.isLt
  simp [TableRow.Statement, rowFields, encode, toNat_encodeXNN]
  omega

theorem TableRow.seReg (x : Reg) (y : Reg) : TableRow.Statement (.seReg x y) := by
  have := x.isLt
  have := y.isLt
  simp [TableRow.Statement, rowFields, encode, toNat_encodeXYN]
  omega

theorem TableRow.ldImm (x : Reg) (nn : Byte) : TableRow.Statement (.ldImm x nn) := by
  have := x.isLt
  have := nn.isLt
  simp [TableRow.Statement, rowFields, encode, toNat_encodeXNN]
  omega

theorem TableRow.addImm (x : Reg) (nn : Byte) : TableRow.Statement (.addImm x nn) := by
  have := x.isLt
  have := nn.isLt
  simp [TableRow.Statement, rowFields, encode, toNat_encodeXNN]
  omega

theorem TableRow.ldReg (x : Reg) (y : Reg) : TableRow.Statement (.ldReg x y) := by
  have := x.isLt
  have := y.isLt
  simp [TableRow.Statement, rowFields, encode, toNat_encodeXYN]
  omega

theorem TableRow.orReg (x : Reg) (y : Reg) : TableRow.Statement (.orReg x y) := by
  have := x.isLt
  have := y.isLt
  simp [TableRow.Statement, rowFields, encode, toNat_encodeXYN]
  omega

theorem TableRow.andReg (x : Reg) (y : Reg) : TableRow.Statement (.andReg x y) := by
  have := x.isLt
  have := y.isLt
  simp [TableRow.Statement, rowFields, encode, toNat_encodeXYN]
  omega

theorem TableRow.xorReg (x : Reg) (y : Reg) : TableRow.Statement (.xorReg x y) := by
  have := x.isLt
  have := y.isLt
  simp [TableRow.Statement, rowFields, encode, toNat_encodeXYN]
  omega

theorem TableRow.addReg (x : Reg) (y : Reg) : TableRow.Statement (.addReg x y) := by
  have := x.isLt
  have := y.isLt
  simp [TableRow.Statement, rowFields, encode, toNat_encodeXYN]
  omega

theorem TableRow.sub (x : Reg) (y : Reg) : TableRow.Statement (.sub x y) := by
  have := x.isLt
  have := y.isLt
  simp [TableRow.Statement, rowFields, encode, toNat_encodeXYN]
  omega

theorem TableRow.shr (x : Reg) (y : Reg) : TableRow.Statement (.shr x y) := by
  have := x.isLt
  have := y.isLt
  simp [TableRow.Statement, rowFields, encode, toNat_encodeXYN]
  omega

theorem TableRow.subn (x : Reg) (y : Reg) : TableRow.Statement (.subn x y) := by
  have := x.isLt
  have := y.isLt
  simp [TableRow.Statement, rowFields, encode, toNat_encodeXYN]
  omega

theorem TableRow.shl (x : Reg) (y : Reg) : TableRow.Statement (.shl x y) := by
  have := x.isLt
  have := y.isLt
  simp [TableRow.Statement, rowFields, encode, toNat_encodeXYN]
  omega

theorem TableRow.sneReg (x : Reg) (y : Reg) : TableRow.Statement (.sneReg x y) := by
  have := x.isLt
  have := y.isLt
  simp [TableRow.Statement, rowFields, encode, toNat_encodeXYN]
  omega

theorem TableRow.ldI (nnn : Addr) : TableRow.Statement (.ldI nnn) := by
  have := nnn.isLt
  simp [TableRow.Statement, rowFields, encode, toNat_encodeNNN]
  omega

theorem TableRow.jpV0 (nnn : Addr) : TableRow.Statement (.jpV0 nnn) := by
  have := nnn.isLt
  simp [TableRow.Statement, rowFields, encode, toNat_encodeNNN]
  omega

theorem TableRow.rnd (x : Reg) (nn : Byte) : TableRow.Statement (.rnd x nn) := by
  have := x.isLt
  have := nn.isLt
  simp [TableRow.Statement, rowFields, encode, toNat_encodeXNN]
  omega

theorem TableRow.drw (x : Reg) (y : Reg) (n : Nibble) : TableRow.Statement (.drw x y n) := by
  have := x.isLt
  have := y.isLt
  have := n.isLt
  simp [TableRow.Statement, rowFields, encode, toNat_encodeXYN]
  omega

theorem TableRow.skp (x : Reg) : TableRow.Statement (.skp x) := by
  have := x.isLt
  simp [TableRow.Statement, rowFields, encode, toNat_encodeXNN]
  omega

theorem TableRow.sknp (x : Reg) : TableRow.Statement (.sknp x) := by
  have := x.isLt
  simp [TableRow.Statement, rowFields, encode, toNat_encodeXNN]
  omega

theorem TableRow.ldVxDT (x : Reg) : TableRow.Statement (.ldVxDT x) := by
  have := x.isLt
  simp [TableRow.Statement, rowFields, encode, toNat_encodeXNN]
  omega

theorem TableRow.ldVxK (x : Reg) : TableRow.Statement (.ldVxK x) := by
  have := x.isLt
  simp [TableRow.Statement, rowFields, encode, toNat_encodeXNN]
  omega

theorem TableRow.ldDTVx (x : Reg) : TableRow.Statement (.ldDTVx x) := by
  have := x.isLt
  simp [TableRow.Statement, rowFields, encode, toNat_encodeXNN]
  omega

theorem TableRow.ldSTVx (x : Reg) : TableRow.Statement (.ldSTVx x) := by
  have := x.isLt
  simp [TableRow.Statement, rowFields, encode, toNat_encodeXNN]
  omega

theorem TableRow.addIVx (x : Reg) : TableRow.Statement (.addIVx x) := by
  have := x.isLt
  simp [TableRow.Statement, rowFields, encode, toNat_encodeXNN]
  omega

theorem TableRow.ldFVx (x : Reg) : TableRow.Statement (.ldFVx x) := by
  have := x.isLt
  simp [TableRow.Statement, rowFields, encode, toNat_encodeXNN]
  omega

theorem TableRow.ldBVx (x : Reg) : TableRow.Statement (.ldBVx x) := by
  have := x.isLt
  simp [TableRow.Statement, rowFields, encode, toNat_encodeXNN]
  omega

theorem TableRow.ldMemVx (x : Reg) : TableRow.Statement (.ldMemVx x) := by
  have := x.isLt
  simp [TableRow.Statement, rowFields, encode, toNat_encodeXNN]
  omega

theorem TableRow.ldVxMem (x : Reg) : TableRow.Statement (.ldVxMem x) := by
  have := x.isLt
  simp [TableRow.Statement, rowFields, encode, toNat_encodeXNN]
  omega

end Sys2Proof.Laws
end

