-- ==== Sys2Proof/Laws/Screen.lean ====
section
/-! SUPPORT. The laws of the framebuffer: one toggle, a list of toggles, the cells of a sprite. -/

namespace Sys2Proof.Machine

/-- A row of the framebuffer by its number. -/
theorem Screen.row_eq (fb : Screen) (py : Nat) (h : py < 32) : fb.row py = fb[py] := by
  rw [Screen.row, List.getD_eq_getElem _ _ (by simpa using h)]
  simp

/-- Every cell of the cleared framebuffer is off. -/
@[simp] theorem Screen.cell_clear (px py : Nat) : Screen.clear.cell px py = false := by
  rcases Nat.lt_or_ge py 32 with h | h
  · rw [Screen.cell, Screen.row_eq _ _ h]; simp [Screen.clear]
  · rw [Screen.cell, Screen.row, List.getD_eq_default _ _ (by simpa using h)]; simp

/-- Two framebuffers with the same cells are equal. -/
theorem Screen.ext_cells {a b : Screen} (h : ∀ px py, px < 64 → py < 32 → a.cell px py = b.cell px py) : a = b := by
  apply Vector.ext
  intro py hpy
  apply BitVec.eq_of_getLsbD_eq
  intro px hpx
  have := h px py hpx hpy
  rwa [Screen.cell, Screen.cell, Screen.row_eq _ _ hpy, Screen.row_eq _ _ hpy] at this

/-- A toggle changes its own cell and no other. -/
theorem Screen.cell_toggle (fb : Screen) {px py : Nat} (hx : px < 64) (hy : py < 32) (qx qy : Nat) :
    (fb.toggle px py).cell qx qy = (fb.cell qx qy ^^ decide ((px, py) = (qx, qy))) := by
  rcases Nat.lt_or_ge qy 32 with h | h
  · simp only [Screen.cell, Screen.row_eq _ _ h, Screen.toggle, Vector.getElem_setIfInBounds, Prod.mk.injEq]
    by_cases hq : py = qy
    · subst hq
      rw [if_pos rfl, Screen.row_eq _ _ hy, BitVec.getLsbD_xor, BitVec.getLsbD_twoPow]
      simp [hx]
    · simp [hq]
  · have hrow : ∀ f : Screen, f.row qy = 0#64 := fun f => List.getD_eq_default _ _ (by simpa using h)
    have hq : ¬ ((px, py) = (qx, qy)) := by simp only [Prod.mk.injEq]; omega
    simp [Screen.cell, hrow, hq]

/-- Toggling distinct cells: a cell changes exactly when it is in the list. -/
theorem cell_toggleCells {cells : List (Nat × Nat)} (hin : ∀ c ∈ cells, c.1 < 64 ∧ c.2 < 32) (hnd : cells.Nodup)
    (fb : Screen) (hit : Bool) (qx qy : Nat) :
    (toggleCells cells fb hit).1.cell qx qy = (fb.cell qx qy ^^ decide ((qx, qy) ∈ cells)) := by
  induction cells generalizing fb hit with
  | nil => simp [toggleCells]
  | cons c cells ih =>
    obtain ⟨px, py⟩ := c
    have hc := hin (px, py) List.mem_cons_self
    rw [toggleCells, ih (fun c h => hin c (List.mem_cons_of_mem _ h)) hnd.of_cons, Screen.cell_toggle _ hc.1 hc.2]
    have hnot := (List.nodup_cons.1 hnd).1
    by_cases hq : (px, py) = (qx, qy)
    · rw [hq] at hnot
      simp [hq, hnot]
    · have hq' : ¬ (qx, qy) = (px, py) := fun h => hq h.symm
      simp [List.mem_cons, hq, hq']

/-- Toggling distinct cells: the collision is that a cell of the list was on before (R158). -/
theorem hit_toggleCells {cells : List (Nat × Nat)} (hin : ∀ c ∈ cells, c.1 < 64 ∧ c.2 < 32) (hnd : cells.Nodup)
    (fb : Screen) (hit : Bool) :
    (toggleCells cells fb hit).2 = true ↔ hit = true ∨ ∃ c ∈ cells, fb.cell c.1 c.2 = true := by
  induction cells generalizing fb hit with
  | nil => simp [toggleCells]
  | cons c cells ih =>
    obtain ⟨px, py⟩ := c
    have hc := hin (px, py) List.mem_cons_self
    have hnot := (List.nodup_cons.1 hnd).1
    rw [toggleCells, ih (fun c h => hin c (List.mem_cons_of_mem _ h)) hnd.of_cons]
    have hsame : (∃ c ∈ cells, (fb.toggle px py).cell c.1 c.2 = true) ↔ ∃ c ∈ cells, fb.cell c.1 c.2 = true := by
      refine exists_congr fun c => and_congr_right fun hmem => ?_
      have hne : ¬ (px, py) = (c.1, c.2) := fun h => hnot (h ▸ hmem)
      rw [Screen.cell_toggle _ hc.1 hc.2]
      simp [hne]
    rw [hsame]
    simp [or_assoc]

/-- The cells of one sprite row. -/
theorem mem_rowCells {x0 py : Nat} {row : Byte} {qx qy : Nat} :
    (qx, qy) ∈ rowCells x0 py row ↔ ∃ c, c < 8 ∧ row.getLsbD (7 - c) = true ∧ qx = (x0 + c) % 64 ∧ qy = py := by
  have hlist : [0, 1, 2, 3, 4, 5, 6, 7] = List.range 8 := rfl
  unfold rowCells
  rw [hlist]
  simp only [List.mem_map, List.mem_filter, List.mem_range, Prod.mk.injEq]
  constructor
  · rintro ⟨c, ⟨hc, hbit⟩, hx, hy⟩
    exact ⟨c, hc, hbit, hx.symm, hy.symm⟩
  · rintro ⟨c, hc, hbit, hx, hy⟩
    exact ⟨c, ⟨hc, hbit⟩, hx.symm, hy.symm⟩

/-- The cells of a sprite (R157, R158): the 1 bits of its rows, wrapped at both edges. -/
theorem mem_spriteCells {x0 y0 r : Nat} {rows : List Byte} {qx qy : Nat} :
    (qx, qy) ∈ spriteCells x0 y0 r rows ↔
      ∃ j c, j < rows.length ∧ c < 8 ∧ (rows.getD j 0#8).getLsbD (7 - c) = true ∧
        qx = (x0 + c) % 64 ∧ qy = (y0 + (r + j)) % 32 := by
  induction rows generalizing r with
  | nil => simp [spriteCells]
  | cons row rows ih =>
    rw [spriteCells, List.mem_append, mem_rowCells, ih]
    constructor
    · rintro (⟨c, hc, hbit, hx, hy⟩ | ⟨j, c, hj, hc, hbit, hx, hy⟩)
      · exact ⟨0, c, by simp, hc, by simpa using hbit, hx, by simpa using hy⟩
      · refine ⟨j + 1, c, by simpa using hj, hc, by simpa using hbit, hx, ?_⟩
        rw [hy, show y0 + (r + (j + 1)) = y0 + (r + 1 + j) by omega]
    · rintro ⟨j, c, hj, hc, hbit, hx, hy⟩
      cases j with
      | zero => exact .inl ⟨c, hc, by simpa using hbit, hx, by simpa using hy⟩
      | succ j =>
        refine .inr ⟨j, c, by simpa using hj, hc, by simpa using hbit, hx, ?_⟩
        rw [hy, show y0 + (r + (j + 1)) = y0 + (r + 1 + j) by omega]

/-- Every cell of a sprite is on the screen. -/
theorem spriteCells_inside {x0 y0 r : Nat} {rows : List Byte} :
    ∀ c ∈ spriteCells x0 y0 r rows, c.1 < 64 ∧ c.2 < 32 := by
  rintro ⟨qx, qy⟩ h
  obtain ⟨j, c, -, -, -, hx, hy⟩ := mem_spriteCells.1 h
  exact ⟨by simp only [hx]; omega, by simp only [hy]; omega⟩

/-- No two pixels of one sprite row land on the same cell. -/
theorem nodup_rowCells (x0 py : Nat) (row : Byte) : (rowCells x0 py row).Nodup := by
  have hlist : [0, 1, 2, 3, 4, 5, 6, 7] = List.range 8 := rfl
  unfold rowCells
  rw [hlist]
  refine List.Nodup.map_on ?_ (List.nodup_range.filter _)
  intro a ha b hb hab
  simp only [List.mem_filter, List.mem_range, Prod.mk.injEq] at ha hb hab
  have hw : screenWidth = 64 := rfl
  rw [hw] at hab
  omega

/-- No two pixels of one sprite land on the same cell (R158: 8 < 64 and 15 < 32). -/
theorem nodup_spriteCells {x0 y0 r : Nat} {rows : List Byte} (h : r + rows.length ≤ 32) :
    (spriteCells x0 y0 r rows).Nodup := by
  induction rows generalizing r with
  | nil => exact List.nodup_nil
  | cons row rows ih =>
    rw [List.length_cons] at h
    rw [spriteCells]
    refine List.Nodup.append (nodup_rowCells _ _ _) (ih (by omega)) ?_
    rintro ⟨qx, qy⟩ h1 h2
    obtain ⟨c, -, -, -, hy⟩ := mem_rowCells.1 h1
    obtain ⟨j, c', hj, -, -, -, hy'⟩ := mem_spriteCells.1 h2
    have hh : screenHeight = 32 := rfl
    rw [hh] at hy
    omega

/-! ## The cells of one draw -/

/-- Every cell that a draw toggles is on the screen. -/
theorem drawnCells_inside (x y : Reg) (n : Nibble) (s : State) : ∀ c ∈ drawnCells x y n s, c.1 < 64 ∧ c.2 < 32 :=
  spriteCells_inside

/-- A draw toggles no cell twice. -/
theorem nodup_drawnCells (x y : Reg) (n : Nibble) (s : State) : (drawnCells x y n s).Nodup := by
  have := n.isLt
  exact nodup_spriteCells (by rw [Memory.length_readBytes]; omega)

/-- The cells that a draw toggles (R157, R158). -/
theorem mem_drawnCells {x y : Reg} {n : Nibble} {s : State} {px py : Nat} :
    (px, py) ∈ drawnCells x y n s ↔
      ∃ r c, r < n.toNat ∧ c < 8 ∧ (s.mem.read (effectiveAddr s r)).getLsbD (7 - c) = true ∧
        px = ((s.readV x).toNat + c) % 64 ∧ py = ((s.readV y).toNat + r) % 32 := by
  unfold drawnCells
  rw [mem_spriteCells, Memory.length_readBytes]
  refine exists_congr fun r => exists_congr fun c => and_congr_right fun hr => ?_
  rw [Memory.getD_readBytes _ _ _ _ hr]
  simp [effectiveAddr]

/-- A flag is 1 exactly when it is raised. -/
theorem flagByte_eq_one {b : Bool} : flagByte b = 1#8 ↔ b = true := by cases b <;> decide

end Sys2Proof.Machine
end

