-- ==== Sys2Proof/Tests/Slice0.lean ====
section
/-! SUPPORT. The model's own tests. Expected results are the vectors of spec/95_test_vectors.md (L1, L2) and
the encodings of spec/30_encoding.md, never the model's own answers. After them, for every statement of
Certificates/Slice0/Obligations.lean that has hypotheses, a named witness that meets them, clause by clause. -/

namespace Sys2Proof.Tests

open Sys2Proof Sys2Proof.Machine

/-! ## Helpers -/

/-- The reset state with some registers set and the word `w` at pc. -/
def start (w : Nat) (regs : List (Reg × Byte)) : State :=
  (regs.foldl (fun s p => s.writeV p.1 p.2) State.reset).withFetchWord 16 w

/-- One step of `s` answers a next state that passes `check`. -/
def ends (s : State) (check : State → Bool) : Bool :=
  match step s with
  | .next t => check t
  | .fault _ => false
  | .refused _ => false

/-- What `ends` says. -/
theorem exists_of_ends {s : State} {check : State → Bool} (h : ends s check = true) :
    ∃ t, step s = .next t ∧ check t = true := by
  unfold ends at h
  split at h
  · exact ⟨_, ‹_›, h⟩
  · cases h
  · cases h

/-- The state holds a record of this kind, code, pc, opcode and info. -/
def recorded (t : State) (kind : FaultKind) (code : Nat) (pc : Word) (op : Option Word) (info : Option Nat) : Bool :=
  t.fault == some { kind := kind, code := code, pc := pc, opcode := op, info := info }

/-! ## Decoding: words written out from R71 and R74 to R79 -/

theorem test_decode_family_0 :
    decodeTableWord 16 0x00E0 = some .cls ∧ decodeTableWord 16 0x00EE = some .ret ∧
    decodeTableWord 16 0x0123 = some (.sys 0x123#12) ∧ decodeTableWord 16 0x0000 = some (.sys 0x000#12) ∧
    decodeTableWord 16 0x00E1 = some (.sys 0x0E1#12) := by decide

theorem test_decode_addresses :
    decodeTableWord 16 0x1ABC = some (.jp 0xABC#12) ∧ decodeTableWord 16 0x2210 = some (.call 0x210#12) ∧
    decodeTableWord 16 0xA123 = some (.ldI 0x123#12) ∧ decodeTableWord 16 0xB300 = some (.jpV0 0x300#12) := by decide

theorem test_decode_immediates :
    decodeTableWord 16 0x3342 = some (.seImm 3 0x42#8) ∧ decodeTableWord 16 0x4342 = some (.sneImm 3 0x42#8) ∧
    decodeTableWord 16 0x600A = some (.ldImm 0 0x0A#8) ∧ decodeTableWord 16 0x7F01 = some (.addImm 15 0x01#8) ∧
    decodeTableWord 16 0xC3F0 = some (.rnd 3 0xF0#8) := by decide

theorem test_decode_register_pairs :
    decodeTableWord 16 0x5120 = some (.seReg 1 2) ∧ decodeTableWord 16 0x9120 = some (.sneReg 1 2) ∧
    decodeTableWord 16 0x8120 = some (.ldReg 1 2) ∧ decodeTableWord 16 0x8121 = some (.orReg 1 2) ∧
    decodeTableWord 16 0x8122 = some (.andReg 1 2) ∧ decodeTableWord 16 0x8123 = some (.xorReg 1 2) := by decide

theorem test_decode_arithmetic :
    decodeTableWord 16 0x8124 = some (.addReg 1 2) ∧ decodeTableWord 16 0x8125 = some (.sub 1 2) ∧
    decodeTableWord 16 0x8126 = some (.shr 1 2) ∧ decodeTableWord 16 0x8127 = some (.subn 1 2) ∧
    decodeTableWord 16 0x812E = some (.shl 1 2) ∧ decodeTableWord 16 0x81F4 = some (.addReg 1 15) := by decide

theorem test_decode_draw_and_keys :
    decodeTableWord 16 0xD125 = some (.drw 1 2 5#4) ∧ decodeTableWord 16 0xE59E = some (.skp 5) ∧
    decodeTableWord 16 0xE5A1 = some (.sknp 5) := by decide

theorem test_decode_family_F :
    decodeTableWord 16 0xF107 = some (.ldVxDT 1) ∧ decodeTableWord 16 0xF30A = some (.ldVxK 3) ∧
    decodeTableWord 16 0xF015 = some (.ldDTVx 0) ∧ decodeTableWord 16 0xF218 = some (.ldSTVx 2) ∧
    decodeTableWord 16 0xF21E = some (.addIVx 2) ∧ decodeTableWord 16 0xF029 = some (.ldFVx 0) ∧
    decodeTableWord 16 0xFA33 = some (.ldBVx 10) ∧ decodeTableWord 16 0xF255 = some (.ldMemVx 2) ∧
    decodeTableWord 16 0xF265 = some (.ldVxMem 2) := by decide

/-- The illegal space (R80), words of 95_test_vectors.md. -/
theorem test_decode_illegal :
    decodeWord 0x5121#16 = .illegal 0x5121#16 ∧ decodeWord 0x912F#16 = .illegal 0x912F#16 ∧
    decodeWord 0x8128#16 = .illegal 0x8128#16 ∧ decodeWord 0xE5A2#16 = .illegal 0xE5A2#16 ∧
    decodeWord 0xF0FF#16 = .illegal 0xF0FF#16 ∧ decode [0x12#8] = .truncated := by decide

/-- The encoder writes the same words. -/
theorem test_encode :
    encode (.drw 1 2 5#4) = 0xD125#16 ∧ encode (.shl 1 2) = 0x812E#16 ∧ encode (.jp 0xABC#12) = 0x1ABC#16 ∧
    encode (.ldVxMem 2) = 0xF265#16 ∧ encode .ret = 0x00EE#16 := by decide

/-- Ill-formed terms: the words of CLS and RET are no SYS (R75). -/
theorem test_wellFormed_refuses :
    (Instr.sys 0x0E0#12).wellFormed = false ∧ (Instr.sys 0x0EE#12).wellFormed = false := by decide

/-- Their neighbours are well formed. -/
theorem test_wellFormed_accepts :
    (Instr.sys 0x0DF#12).wellFormed = true ∧ (Instr.sys 0x0E1#12).wellFormed = true ∧
    (Instr.sys 0x0EF#12).wellFormed = true ∧ (Instr.sys 0x000#12).wellFormed = true ∧
    (Instr.drw 15 15 15#4).wellFormed = true := by decide

/-! ## Control transfer (95_test_vectors.md L2) -/

theorem test_jp : ends (start 0x1ABC []) (fun t => t.pc == 0xABC#16) = true := by decide

theorem test_jp_top_then_fetch_fault :
    ends { start 0x1FFF [] with pc := 0xFFF#16 }
      (fun t => recorded t .memoryOutOfBounds 4 0xFFF#16 none (some 0x1000)) = true := by decide

theorem test_call :
    ends ({ State.reset with pc := 0x204#16 }.withFetchWord 16 0x2210)
      (fun t => t.stack == [0x206#16] && t.pc == 0x210#16) = true := by decide

theorem test_call_full :
    ends { start 0x2300 [] with stack := List.replicate 16 0x202#16 }
      (fun t => recorded t .stackOverflow 2 0x200#16 (some 0x2300#16) none && t.pc == 0x200#16 &&
        t.stack == List.replicate 16 0x202#16) = true := by decide

theorem test_ret :
    ends { start 0x00EE [] with stack := [0x206#16] } (fun t => t.pc == 0x206#16 && t.stack == []) = true := by decide

/-- A fault leaves the timers (R180). -/
theorem test_ret_empty :
    ends { start 0x00EE [] with dt := 5#8 }
      (fun t => recorded t .stackUnderflow 3 0x200#16 (some 0x00EE#16) none && t.dt == 5#8) = true := by decide

theorem test_jpV0 : ends (start 0xB300 [(0, 0x04#8)]) (fun t => t.pc == 0x304#16) = true := by decide

theorem test_jpV0_max : ends (start 0xBFFF [(0, 0xFF#8)]) (fun t => t.pc == 0x10FE#16) = true := by decide

theorem test_sys :
    ends ({ State.reset with pc := 0x300#16 }.withFetchWord 16 0x0123)
      (fun t => recorded t .illegalInstruction 1 0x300#16 (some 0x0123#16) (some 0x0123) && t.pc == 0x300#16) = true := by
  decide

/-- SYS under the policy Nop. -/
theorem test_sys_nop :
    execSysUnder { Config.spec with illegalPolicy := .nop } 0x123#12 { State.reset with pc := 0x300#16 } =
      .next { State.reset with pc := 0x302#16 } := rfl

/-! ## Skips -/

theorem test_seImm :
    ends (start 0x3342 [(3, 0x42#8)]) (fun t => t.pc == 0x204#16) = true ∧
    ends (start 0x3342 [(3, 0x41#8)]) (fun t => t.pc == 0x202#16) = true := by decide

theorem test_sneImm :
    ends (start 0x4342 [(3, 0x41#8)]) (fun t => t.pc == 0x204#16) = true ∧
    ends (start 0x4342 [(3, 0x42#8)]) (fun t => t.pc == 0x202#16) = true := by decide

theorem test_seReg :
    ends (start 0x5110 []) (fun t => t.pc == 0x204#16) = true ∧
    ends (start 0x5120 [(1, 1#8), (2, 2#8)]) (fun t => t.pc == 0x202#16) = true := by decide

theorem test_sneReg :
    ends (start 0x9110 []) (fun t => t.pc == 0x202#16) = true ∧
    ends (start 0x9120 [(1, 1#8), (2, 2#8)]) (fun t => t.pc == 0x204#16) = true := by decide

theorem test_skp :
    ends (setKey 10 true (start 0xE59E [(5, 0x0A#8)])) (fun t => t.pc == 0x204#16) = true ∧
    ends (start 0xE59E [(5, 0x0A#8)]) (fun t => t.pc == 0x202#16) = true := by decide

theorem test_skp_index_16 :
    ends (start 0xE59E [(5, 0x10#8)])
      (fun t => recorded t .keyIndexOutOfRange 5 0x200#16 (some 0xE59E#16) (some 0x10)) = true := by decide

theorem test_sknp :
    ends (setKey 10 true (start 0xE5A1 [(5, 0x0A#8)])) (fun t => t.pc == 0x202#16) = true ∧
    ends (start 0xE5A1 [(5, 0x0A#8)]) (fun t => t.pc == 0x204#16) = true := by decide

/-! ## Loads and ALU -/

theorem test_ldImm_vf : ends (start 0x6F07 []) (fun t => t.readV 15 == 0x07#8) = true := by decide

theorem test_addImm_wrap :
    ends (start 0x7102 [(1, 0xFF#8), (15, 0x33#8)]) (fun t => t.readV 1 == 0x01#8 && t.readV 15 == 0x33#8) = true := by
  decide

theorem test_ldReg : ends (start 0x8120 [(2, 0x33#8)]) (fun t => t.readV 1 == 0x33#8) = true := by decide

theorem test_or :
    ends (start 0x8121 [(1, 0xF0#8), (2, 0x0F#8), (15, 0x77#8)])
      (fun t => t.readV 1 == 0xFF#8 && t.readV 15 == 0x77#8) = true := by decide

theorem test_and :
    ends (start 0x8122 [(1, 0xF0#8), (2, 0x3C#8), (15, 0x77#8)])
      (fun t => t.readV 1 == 0x30#8 && t.readV 15 == 0x77#8) = true := by decide

theorem test_xor_self : ends (start 0x8113 [(1, 0x5A#8)]) (fun t => t.readV 1 == 0x00#8) = true := by decide

theorem test_add_carry :
    ends (start 0x8124 [(1, 0xFF#8), (2, 0x01#8)]) (fun t => t.readV 1 == 0x00#8 && t.readV 15 == 1#8) = true := by
  decide

theorem test_add_vf_operands :
    ends (start 0x8F14 [(15, 0xFF#8), (1, 0x01#8)]) (fun t => t.readV 15 == 1#8) = true ∧
    ends (start 0x81F4 [(1, 0x10#8), (15, 0x05#8)]) (fun t => t.readV 1 == 0x15#8 && t.readV 15 == 0#8) = true := by
  decide

theorem test_sub_equal_and_borrow :
    ends (start 0x8125 [(1, 5#8), (2, 5#8)]) (fun t => t.readV 1 == 0#8 && t.readV 15 == 1#8) = true ∧
    ends (start 0x8125 [(1, 0#8), (2, 1#8)]) (fun t => t.readV 1 == 0xFF#8 && t.readV 15 == 0#8) = true := by decide

theorem test_sub_x_is_vf : ends (start 0x8F15 [(15, 1#8), (1, 2#8)]) (fun t => t.readV 15 == 0#8) = true := by decide

theorem test_shr_ignores_vy :
    ends (start 0x8126 [(1, 0x05#8)]) (fun t => t.readV 1 == 0x02#8 && t.readV 15 == 1#8) = true ∧
    ends (start 0x8126 [(1, 0x04#8), (2, 0x03#8)]) (fun t => t.readV 1 == 0x02#8 && t.readV 15 == 0#8) = true := by
  decide

/-- The same vector with SHIFT_USES_VY true. -/
theorem test_shr_uses_vy :
    (match execShrUnder { Config.spec with shiftUsesVy := true } 1 2 (start 0x8126 [(1, 0x04#8), (2, 0x03#8)]) with
      | .next t => t.readV 1 == 0x01#8 && t.readV 15 == 1#8
      | .fault _ => false
      | .refused _ => false) = true := by decide

theorem test_subn :
    ends (start 0x8127 [(1, 1#8), (2, 3#8)]) (fun t => t.readV 1 == 2#8 && t.readV 15 == 1#8) = true ∧
    ends (start 0x8127 [(1, 3#8), (2, 1#8)]) (fun t => t.readV 1 == 0xFE#8 && t.readV 15 == 0#8) = true := by decide

theorem test_shl :
    ends (start 0x812E [(1, 0x81#8)]) (fun t => t.readV 1 == 0x02#8 && t.readV 15 == 1#8) = true ∧
    ends (start 0x812E [(1, 0x40#8)]) (fun t => t.readV 1 == 0x80#8 && t.readV 15 == 0#8) = true := by decide

theorem test_shl_x_is_vf : ends (start 0x8FFE [(15, 0x80#8)]) (fun t => t.readV 15 == 1#8) = true := by decide

/-- Whatever the byte drawn, the register receives it masked and the draw is consumed. -/
theorem test_rnd_masks :
    ∃ t, step (start 0xC3F0 []) = .next t ∧ t.readV 3 = Config.randomByte 0 &&& 0xF0#8 ∧ t.draws = 1 :=
  ⟨_, rfl, rfl, rfl⟩

/-! ## Index register and memory -/

theorem test_ldI : ends (start 0xA123 []) (fun t => t.i == 0x123#16) = true := by decide

theorem test_addIVx :
    ends { start 0xF11E [(1, 1#8)] with i := 0xFFF#16 } (fun t => t.i == 0x1000#16 && t.fault == none) = true ∧
    ends { start 0xF11E [(1, 1#8)] with i := 0xFFFF#16 } (fun t => t.i == 0x0000#16) = true := by decide

theorem test_ldFVx :
    ends (start 0xF029 [(0, 0x0F#8)]) (fun t => t.i == 0x09B#16) = true ∧
    ends (start 0xF029 [(0, 0x1A#8)]) (fun t => t.i == 0x082#16) = true := by decide

theorem test_bcd :
    ends { start 0xFA33 [(10, 0x7B#8)] with i := 0x300#16 }
      (fun t => t.mem.readBytes 0x300 3 == [0x01#8, 0x02#8, 0x03#8]) = true ∧
    ends { start 0xF033 [(0, 0xFF#8)] with i := 0xFFD#16 }
      (fun t => t.mem.readBytes 0xFFD 3 == [0x02#8, 0x05#8, 0x05#8]) = true := by decide

theorem test_bcd_over_edge :
    ends { start 0xF033 [(0, 0xFF#8)] with i := 0xFFE#16 }
      (fun t => recorded t .memoryOutOfBounds 4 0x200#16 (some 0xF033#16) (some 0x1000) &&
        t.mem.readBytes 0xFFE 2 == [0#8, 0#8]) = true := by decide

theorem test_store :
    ends { start 0xF255 [(0, 1#8), (1, 2#8), (2, 3#8), (3, 4#8)] with i := 0x400#16 }
      (fun t => t.mem.readBytes 0x3FF 5 == [0#8, 1#8, 2#8, 3#8, 0#8] && t.i == 0x400#16) = true := by decide

theorem test_store_at_edge :
    ends { start 0xFF55 [(0, 1#8), (15, 2#8)] with i := 0xFF0#16 }
      (fun t => t.mem.read 0xFF0 == 1#8 && t.mem.read 0xFFF == 2#8) = true ∧
    ends { start 0xFF55 [(0, 1#8), (15, 2#8)] with i := 0xFF1#16 }
      (fun t => recorded t .memoryOutOfBounds 4 0x200#16 (some 0xFF55#16) (some 0x1000) &&
        t.mem.read 0xFF1 == 0#8) = true := by decide

theorem test_load :
    ends { State.reset.withFetchWord 16 0xF265 with
        i := 0x300#16
        mem := (State.reset.withFetchWord 16 0xF265).mem.writeBytes 0x300 [1#8, 2#8, 3#8, 4#8] }
      (fun t => t.readV 0 == 1#8 && t.readV 1 == 2#8 && t.readV 2 == 3#8 && t.readV 3 == 0#8 && t.i == 0x300#16) =
      true := by decide

theorem test_load_beyond :
    ends { start 0xF065 [] with i := 0x1000#16 }
      (fun t => recorded t .memoryOutOfBounds 4 0x200#16 (some 0xF065#16) (some 0x1000)) = true := by decide

/-! ## Display -/

/-- One cell on, then CLS. -/
theorem test_cls :
    ends { start 0x00E0 [] with fb := Screen.clear.toggle 63 31 }
      (fun t => t.fb == Screen.clear && t.redraw && !t.fb.cell 63 31) = true := by decide

/-- Glyph 0 at (0, 0) on an empty screen: the rows F0 90 90 90 F0 with bit 7 in column 0, so row bits 0 to
3 and 0, 3. -/
theorem test_draw_glyph :
    ends { start 0xD015 [(15, 1#8)] with i := 0x050#16 }
      (fun t => t.fb.toList.take 6 == [0xF#64, 0x9#64, 0x9#64, 0x9#64, 0xF#64, 0x0#64] && t.readV 15 == 0#8 &&
        t.redraw) = true := by decide

/-- A start beyond both edges, a sprite across the right edge, and a collision. -/
theorem test_draw_wraps :
    ends { start 0xD011 [(0, 0x43#8), (1, 0x22#8)] with
        i := 0x300#16, mem := (start 0xD011 []).mem.writeBytes 0x300 [0x80#8] }
      (fun t => t.fb == Screen.clear.toggle 3 2 && t.readV 15 == 0#8) = true ∧
    ends { start 0xD011 [(0, 0x3F#8), (1, 0#8)] with
        i := 0x300#16, mem := (start 0xD011 []).mem.writeBytes 0x300 [0xC0#8], fb := Screen.clear.toggle 0 0 }
      (fun t => t.fb == Screen.clear.toggle 63 0 && t.readV 15 == 1#8) = true := by decide

/-! ## Timers, keys, the cycle -/

theorem test_set_dt :
    ends (start 0xF015 [(0, 1#8)]) (fun t => t.dt == 0#8) = true ∧
    ends (start 0xF015 [(0, 5#8)]) (fun t => t.dt == 4#8) = true := by decide

theorem test_set_st : ends (start 0xF218 [(2, 3#8)]) (fun t => t.st == 2#8) = true := by decide

theorem test_read_dt :
    ends { start 0xF107 [] with dt := 4#8 } (fun t => t.readV 1 == 4#8 && t.dt == 3#8) = true ∧
    ends (start 0xF107 []) (fun t => t.readV 1 == 0#8 && t.dt == 0#8) = true := by decide

theorem test_enter_wait :
    ends (setKey 2 true ({ State.reset with pc := 0x230#16 }.withFetchWord 16 0xF30A))
      (fun t => t.waiting && t.waitReg == 3 && t.pc == 0x232#16 && t.readV 3 == 0#8) = true := by decide

theorem test_blocked_no_key :
    ends { State.reset with waiting := true, dt := 2#8 } (fun t => t.waiting && t.dt == 1#8 && t.pc == 0x200#16) =
      true := by decide

theorem test_blocked_keys_7_and_9 :
    ends (setKey 9 true (setKey 7 true { State.reset with waiting := true, waitReg := 3 }))
      (fun t => t.readV 3 == 7#8 && !t.waiting && t.pc == 0x200#16 && t.key[7] && t.key[9]) = true := by decide

theorem test_illegal_word :
    ends (State.reset.withFetchWord 16 0x8128)
      (fun t => recorded t .illegalInstruction 1 0x200#16 (some 0x8128#16) (some 0x8128)) = true := by decide

theorem test_faulted_is_quiescent :
    ends { start 0x00E0 [] with fault := some ⟨.stackUnderflow, 3, 0x200#16, some 0x00EE#16, none⟩, dt := 5#8 }
      (fun t => t.dt == 5#8 && !t.redraw && t.pc == 0x200#16) = true := by decide

/-- The host reads the key flags it wrote (R34). -/
theorem test_host_reads_keys :
    readKey 9 (setKey 9 true State.reset) = true ∧ readKey 8 (setKey 9 true State.reset) = false ∧
    readKeys (setKeys (Vector.replicate 16 true) State.reset) = Vector.replicate 16 true := by decide

/-- Loading the image of program P1 (95_test_vectors.md L3). -/
theorem test_load_image :
    (load (.bytes [0x00#8, 0xE0#8, 0x60#8, 0x0A#8, 0x12#8, 0x02#8]) { State.reset with i := 7#16, redraw := true }).1 =
      none ∧
    (load (.bytes [0x00#8, 0xE0#8, 0x60#8, 0x0A#8, 0x12#8, 0x02#8]) { State.reset with i := 7#16, redraw := true }).2 =
      { State.reset with
        mem := [(0x201, 0xE0#8), (0x202, 0x60#8), (0x203, 0x0A#8), (0x204, 0x12#8), (0x205, 0x02#8)] } := by decide

/-! ## Witnesses: the hypotheses of the statements, met together -/

theorem witness_DecodeOfEncodeIsTheInstruction :
    (Instr.sys 0xFFF#12).wellFormed = true ∧ (Instr.sys 0x0E1#12).wellFormed = true ∧
    (Instr.drw 0 15 15#4).wellFormed = true := by decide

theorem witness_EncodeOfDecodeIsTheWord :
    decodeWord 0x0000#16 = .instr (.sys 0#12) ∧ decodeWord 0xFF65#16 = .instr (.ldVxMem 15) := by decide

/-- pc where it is, and pc at the last byte, from which the word is placed elsewhere. -/
theorem witness_PlacedWordIsExecuted :
    State.reset.mem.wf = true ∧ decodeTableWord 16 0x8124 = some (.addReg 1 2) ∧
    ({ State.reset with pc := 0xFFF#16 }.withFetchWord 16 0x8124).pc = 0x200#16 := by decide

/-- A run of RET that pops, one that raises, and one at the last address that holds an instruction. -/
theorem witness_Runs_ret (stack : List Word) : { start 0x00EE [] with stack := stack }.Runs .ret :=
  have h : (start 0x00EE []).Runs .ret := ⟨⟨rfl, rfl⟩, by decide, rfl⟩
  ⟨h.1, h.2.1, h.2.2⟩

theorem witness_Runs_at_top : ({ State.reset with pc := 0xFFE#16 }.withFetchWord 16 0x1ABC).Runs (.jp 0xABC#12) :=
  ⟨⟨rfl, rfl⟩, by decide, rfl⟩

theorem witness_StepRunsTheDecodedInstruction_completes :
    ∃ t, exec .ret { start 0x00EE [] with stack := [0x206#16] } = .next t ∧ t.fault = none := ⟨_, rfl, rfl⟩

theorem witness_StepRunsTheDecodedInstruction_faults :
    ∃ t, exec .ret { start 0x00EE [] with stack := [] } = .next t ∧ t.fault ≠ none := ⟨_, rfl, nofun⟩

/-- The last pc that fetches, and the two kinds of pc that do not. -/
theorem witness_FetchIsABoundedBigEndianPair :
    (0xFFE#16).toNat + 1 < memSize ∧ { State.reset with pc := 0xFFF#16 }.Running ∧ memSize ≤ (0xFFF#16).toNat + 1 ∧
    ¬ memSize ≤ (0xFFF#16).toNat ∧ { State.reset with pc := 0x1000#16 }.Running ∧ memSize ≤ (0x1000#16).toNat :=
  ⟨by decide, ⟨rfl, rfl⟩, by decide, by decide, ⟨rfl, rfl⟩, by decide⟩

theorem witness_IllegalWordsFollowThePolicy :
    (State.reset.withFetchWord 16 0x8128).Running ∧ (State.reset.withFetchWord 16 0x8128).pc.toNat + 1 < memSize ∧
    decode [(State.reset.withFetchWord 16 0x8128).mem.read 0x200, (State.reset.withFetchWord 16 0x8128).mem.read 0x201] =
      .illegal 0x8128#16 ∧
    { Config.spec with illegalPolicy := .nop }.illegalPolicy = .nop ∧ State.reset.fault = none :=
  ⟨⟨rfl, rfl⟩, by decide, by decide, rfl, rfl⟩

/-- Waiting with the highest key alone, with the lowest, and with none. -/
theorem witness_BlockedCycleScansTheKeys :
    { State.reset with waiting := true }.Blocked ∧ (∀ k : Reg, { State.reset with waiting := true }.key[k] = false) ∧
    (setKey 15 true { State.reset with waiting := true }).Blocked ∧
    (setKey 15 true State.reset).key[15] = true ∧ (∀ j : Reg, j < 15 → (setKey 15 true State.reset).key[j] = false) ∧
    (setKey 0 true State.reset).key[0] = true ∧ (∀ j : Reg, j < 0 → (setKey 0 true State.reset).key[j] = false) :=
  ⟨⟨rfl, rfl⟩, by decide, ⟨rfl, rfl⟩, by decide, by decide, by decide, by decide⟩

/-- Cycles without a fault that set DT, set ST, and do neither. -/
theorem witness_TimersDecayInEveryFaultFreeCycle :
    (start 0xF015 [(0, 5#8)]).Runs (.ldDTVx 0) ∧ (start 0xF218 [(2, 3#8)]).Runs (.ldSTVx 2) ∧
    (∀ x, ¬ (start 0x1ABC []).Runs (.ldDTVx x) ∧ ¬ (start 0x1ABC []).Runs (.ldSTVx x)) ∧
    (∃ t, step (start 0xF015 [(0, 5#8)]) = .next t ∧ t.fault = none) ∧
    (∃ t, step (start 0x1ABC []) = .next t ∧ t.fault = none) := by
  refine ⟨⟨⟨rfl, rfl⟩, by decide, rfl⟩, ⟨⟨rfl, rfl⟩, by decide, rfl⟩, fun x => ⟨fun h => ?_, fun h => ?_⟩,
    ⟨_, rfl, rfl⟩, ⟨_, rfl, rfl⟩⟩
  · have e : Decoded.instr (.jp 0xABC#12) = .instr (.ldDTVx x) := h.2.2
    cases e
  · have e : Decoded.instr (.jp 0xABC#12) = .instr (.ldSTVx x) := h.2.2
    cases e

/-- A fault with its word and a fault of the fetch. -/
theorem witness_FaultsArePrecise :
    (start 0x00EE []).Running ∧ (∃ t f, step (start 0x00EE []) = .next t ∧ t.fault = some f) ∧
    (start 0x00EE []).pc.toNat + 1 < memSize ∧
    { State.reset with pc := 0xFFF#16 }.Running ∧
    (∃ t f, step { State.reset with pc := 0xFFF#16 } = .next t ∧ t.fault = some f) :=
  ⟨⟨rfl, rfl⟩, ⟨_, _, rfl, rfl⟩, by decide, ⟨rfl, rfl⟩, ⟨_, _, rfl, rfl⟩⟩

theorem witness_EachInstructionRaisesOnlyItsOwnFault :
    State.reset.fault = none ∧ ∃ t f, exec .ret State.reset = .next t ∧ t.fault = some f := ⟨rfl, _, _, rfl, rfl⟩

theorem witness_OnlyLoadLeavesAFault :
    (State.reset.raise .stackUnderflow (some 0x00EE#16) none).Faulted ∧
    ∀ a ∈ [HostAction.cycle, .setKey 3 true, .clearRedraw, .setKeys (Vector.replicate 16 true), .cycle],
      a.isLoad = false := ⟨nofun, by decide⟩

/-- One address too many, for each form that accesses memory; and `I` beyond memory. -/
theorem witness_MemoryAccessIsCheckedBeforeAnyEffect :
    accessCount (.ldBVx 0) ≠ 0 ∧ memSize < (0xFFE#16).toNat + accessCount (.ldBVx 0) ∧
    accessCount (.ldMemVx 15) ≠ 0 ∧ memSize < (0xFF1#16).toNat + accessCount (.ldMemVx 15) ∧
    accessCount (.ldVxMem 0) ≠ 0 ∧ memSize < (0x1000#16).toNat + accessCount (.ldVxMem 0) ∧
    accessCount (.drw 0 1 3#4) ≠ 0 ∧ memSize < (0xFFE#16).toNat + accessCount (.drw 0 1 3#4) := by decide

/-- The invariant at its bounds: a full stack, a return address of MEM_SIZE, the highest pc, a byte of memory
that differs from its reset contents, a fault record. -/
theorem witness_Inv_bounds :
    State.Inv
      { State.reset with
        mem := [(0x50, 0#8), (0xFFF, 1#8)]
        stack := List.replicate 16 0x1000#16
        pc := 0x10FE#16
        fault := some ⟨.memoryOutOfBounds, 4, 0x10FE#16, none, some 0x10FE⟩ } :=
  { memory := by decide
    depth := by decide
    returns := fun r hr => by rw [List.eq_of_mem_replicate hr]; decide
    pcBound := by decide
    record := by intro f hf; cases hf; exact ⟨rfl, rfl, fun _ => rfl⟩ }

/-- A running state that meets the invariant and whose step answers a next state. -/
theorem witness_StepKeepsTheInvariant :
    (start 0x2210 []).Inv ∧ ∃ t, step (start 0x2210 []) = .next t :=
  ⟨{ memory := by decide, depth := by decide, returns := nofun, pcBound := by decide, record := nofun }, _, rfl⟩

theorem witness_HostActionsKeepTheInvariant : State.reset.Inv :=
  { memory := by decide, depth := by decide, returns := nofun, pcBound := by decide, record := nofun }

/-- A cycle that ends a wait with a key set. -/
theorem witness_CoreNeverWritesAKeyFlag :
    ∃ t, step (setKey 7 true { State.reset with waiting := true }) = .next t ∧ (!t.waiting) = true :=
  exists_of_ends (by decide)

theorem witness_OnlyDisplayInstructionsWriteTheScreen :
    (∃ t, step (start 0x00E0 []) = .next t ∧ (t.redraw != State.reset.redraw) = true) ∧
    ∃ t, step { start 0xD015 [] with i := 0x050#16 } = .next t ∧ (t.fb != State.reset.fb) = true :=
  ⟨exists_of_ends (by decide), exists_of_ends (by decide)⟩

theorem witness_OnlyCallAndReturnChangeTheStack :
    (∃ t, step (start 0x2210 []) = .next t ∧ (t.stack != State.reset.stack) = true) ∧
    ∃ t, step { start 0x00EE [] with stack := [0x206#16] } = .next t ∧ (t.stack != [0x206#16]) = true :=
  ⟨exists_of_ends (by decide), exists_of_ends (by decide)⟩

/-- Bytes that FX33 and FX55 change. -/
theorem witness_OnlyStoresChangeMemory :
    (start 0xFA33 [(10, 0x7B#8)]).mem.wf = true ∧
    (∃ t, step { start 0xFA33 [(10, 0x7B#8)] with i := 0x300#16 } = .next t ∧
      (t.mem.read 0x302 != (start 0xFA33 []).mem.read 0x302) = true) ∧
    ∃ t, step { start 0xF255 [(2, 9#8)] with i := 0x300#16 } = .next t ∧
      (t.mem.read 0x302 != (start 0xF255 []).mem.read 0x302) = true :=
  ⟨by decide, exists_of_ends (by decide), exists_of_ends (by decide)⟩

theorem witness_OnlyKeySkipsReadTheKeys :
    (∀ x, Instr.ldVxK 3 ≠ .skp x ∧ Instr.ldVxK 3 ≠ .sknp x) ∧ ∃ t, exec (.ldVxK 3) State.reset = .next t :=
  ⟨fun _ => ⟨nofun, nofun⟩, _, rfl⟩

/-- FX18 writes the sound timer and reads none. -/
theorem witness_NoInstructionReadsSoundOrRedraw : ∃ t, exec (.ldSTVx 2) State.reset = .next t := ⟨_, rfl⟩

/-- The last entry that fits, and a full stack. -/
theorem witness_CallPushesTheReturnAddress :
    (List.replicate 15 0x202#16).length < 16 ∧ (List.replicate 16 0x202#16).length = 16 := by decide

theorem witness_ReturnPopsIntoPc :
    { State.reset with stack := [0x206#16] }.stack = [] ++ [0x206#16] ∧
    { State.reset with stack := List.replicate 16 0x202#16 }.stack = List.replicate 15 0x202#16 ++ [0x202#16] ∧
    State.reset.stack = [] := by decide

theorem witness_CallThenReturnComesBack :
    { State.reset with stack := List.replicate 15 0x202#16 }.stack.length < 16 := by decide

/-- The 16 calls that fit and the 17 that do not. -/
theorem witness_SeventeenthNestedCallOverflows :
    State.reset.stack = [] ∧ State.reset.fault = none ∧ (List.replicate 16 0x200#12).length ≤ 16 ∧
    (List.replicate 17 0x200#12).length = 17 := by decide

/-- The highest key and the first number beyond the keys. -/
theorem witness_KeySkipsReadTheNamedKey :
    ((State.reset.writeV 5 15#8).readV 5).toNat = (15 : Reg).val ∧ 15 < ((State.reset.writeV 5 16#8).readV 5).toNat := by
  decide

/-- A destination that is not VF, for ADD, SUB, SUBN, SHR and SHL. -/
theorem witness_destination_is_not_VF : (14 : Reg) ≠ 15 := by decide

theorem witness_RandomIsTheMaskedDraw : (0x00#8 : Byte) = 0#8 := rfl

/-- The highest `I` for FX33, for FX55 and FX65 of all registers, and for FX65 of V0. -/
theorem witness_transfers_at_the_edge :
    State.reset.mem.wf = true ∧ (0xFFD#16).toNat + 2 < memSize ∧ (0xFF0#16).toNat + (15 : Reg).val < memSize ∧
    (0xFFF#16).toNat + (0 : Reg).val < memSize ∧ (0 : Reg) ≤ 0 ∧ (15 : Reg) ≤ 15 := by decide

theorem witness_ParametersGiveTheOtherConventions :
    { Config.spec with shiftUsesVy := true }.shiftUsesVy = true ∧
    { Config.spec with loadStoreIncrementsI := true }.loadStoreIncrementsI = true ∧ (1 : Reg) ≠ 15 ∧
    { State.reset with i := 0xFFF#16 }.i.toNat + (0 : Reg).val < memSize := by decide

/-- A state with the memory that the store left, from which the load runs. -/
theorem witness_StoreThenLoadRestoresTheRegisters :
    ∃ t, exec (.ldMemVx 2) { State.reset with i := 0xFFD#16 } = .next t ∧
      { t with v := Vector.replicate 16 7#8 }.mem = t.mem ∧ { t with v := Vector.replicate 16 7#8 }.i = 0xFFD#16 :=
  ⟨_, rfl, rfl, rfl⟩

/-- The last pair of the stored bytes, at the end of memory. -/
theorem witness_StoredBytesAreFetched :
    (0xFFD#16).toNat + (2 : Reg).val < memSize ∧ (1 : Reg) < 2 ∧
    ∃ t, exec (.ldMemVx 2) { State.reset with i := 0xFFD#16 } = .next t ∧
      { t with pc := 0xFFE#16 }.mem = t.mem ∧ { t with pc := 0xFFE#16 }.pc.toNat = (0xFFD#16).toNat + (1 : Reg).val :=
  ⟨by decide, by decide, _, rfl, rfl, rfl⟩

/-- No row with `I` beyond memory; the last row inside; the first row outside. -/
theorem witness_DrawTogglesExactlyTheSprite :
    (0#4 : Nibble).toNat = 0 ∧ (0xFFD#16).toNat + (3#4 : Nibble).toNat ≤ memSize ∧
    (3#4 : Nibble).toNat ≠ 0 ∧ memSize < (0xFFE#16).toNat + (3#4 : Nibble).toNat := by decide

theorem witness_DrawingTwiceRestoresTheScreen :
    (0 : Reg) ≠ 15 ∧ (14 : Reg) ≠ 15 ∧ (0xFF1#16).toNat + (15#4 : Nibble).toNat ≤ memSize := by decide

/-- On a screen that a sprite fills, the second draw finds every cell off (log 12): VF is 1 after the first
draw, 0 after the second. -/
theorem witness_second_draw_without_collision :
    (match execAll [.drw 0 1 1#4, .drw 0 1 1#4]
        { State.reset with mem := [(0x300, 0x80#8)], i := 0x300#16, fb := Screen.clear.toggle 0 0 } with
      | .next t => t.fb == Screen.clear.toggle 0 0 && t.readV 15 == 0#8
      | .fault _ => false
      | .refused _ => false) = true := by decide

theorem witness_ReadDelayTimerBeforeDecay : (start 0xF107 []).Runs (.ldVxDT 1) := ⟨⟨rfl, rfl⟩, by decide, rfl⟩

theorem witness_SetTimersThenDecay :
    (start 0xF015 []).Runs (.ldDTVx 0) ∧ (start 0xFF18 []).Runs (.ldSTVx 15) :=
  ⟨⟨⟨rfl, rfl⟩, by decide, rfl⟩, ⟨⟨rfl, rfl⟩, by decide, rfl⟩⟩

theorem witness_HeldKeyEndsTheWaitInTheNextCycle :
    (setKey 15 true (start 0xF30A [])).Runs (.ldVxK 3) ∧ (setKey 15 true (start 0xF30A [])).key[15] = true ∧
    (∀ j : Reg, j < 15 → (setKey 15 true (start 0xF30A [])).key[j] = false) :=
  ⟨⟨⟨rfl, rfl⟩, by decide, rfl⟩, by decide, by decide⟩

theorem witness_BlockedMachineWaitsWhileTimersRunOut :
    { State.reset with waiting := true, dt := 255#8 }.Blocked ∧
    ∀ k : Reg, { State.reset with waiting := true, dt := 255#8 }.key[k] = false := ⟨⟨rfl, rfl⟩, by decide⟩

/-- The largest image that fits, the smallest that does not, and the empty one (R199). -/
theorem witness_LoadPlacesTheImageInAResetMachine :
    (List.replicate 3584 0#8).length ≤ 3584 ∧ 3584 < (List.replicate 3585 0#8).length ∧ ([] : List Byte).length ≤ 3584 := by
  simp only [List.length_replicate, List.length_nil]; decide

theorem witness_ResetStateIsTheTable_font_edges :
    State.reset.mem.read 0x50 = 0xF0#8 ∧ State.reset.mem.read 0x9F = 0x80#8 ∧ State.reset.mem.read 0x4F = 0#8 ∧
    State.reset.mem.read 0xA0 = 0#8 := by decide

theorem witness_LoadedProgramStartsAtItsFirstWord :
    (List.replicate 3582 0#8).length ≤ 3582 ∧ decode [0x00#8, 0xE0#8] = .instr .cls := by
  simp only [List.length_replicate]; decide

end Sys2Proof.Tests
end

section
/-! The fetch (spec/20_memory.md R55). -/

namespace Sys2Proof.Machine

/-- The fetched word is big-endian: the byte at pc is its high byte (R55). -/
theorem toNat_fetchedWord (s : State) :
    (fetchedWord s).toNat = (s.mem.read s.pc.toNat).toNat * 256 + (s.mem.read (s.pc.toNat + 1)).toNat :=
  toNat_wordOfBytes _ _

/-- Of two consecutive addresses that are not both inside memory, the lowest one outside is the first where
that is outside, else the second, which is then MEM_SIZE itself (R54). -/
theorem max_memSize_of_pair_outside {a : Nat} (h : memSize ≤ a + 1) :
    max a memSize = if memSize ≤ a then a else a + 1 := by
  split
  · omega
  · omega

/-- A running state whose fetch leaves memory raises MemoryOutOfBounds in its step (R54, R55). -/
theorem step_fetch_outside {s : State} (hr : s.Running) (h : memSize ≤ s.pc.toNat + 1) :
    step s = .next (s.raise .memoryOutOfBounds none (some (max s.pc.toNat memSize))) := by
  obtain ⟨hfault, hwaiting⟩ := hr
  rw [step_running hfault hwaiting, runCycle_outside (by omega), fetchFaultCycle]

/-- Settles O7: inside memory by the rules of the fetch and of the word, outside it by the step's fetch fault,
whose address is the lowest of the pair that is outside. -/
theorem fetchIsABoundedBigEndianPair : Obligations.FetchIsABoundedBigEndianPair := by
  intro s
  constructor
  · intro hpc
    exact ⟨State.fetch_inside hpc, toNat_fetchedWord s⟩
  · intro hr hpc
    refine ⟨_, step_fetch_outside hr hpc, ?_⟩
    rw [max_memSize_of_pair_outside hpc]
    rfl

end Sys2Proof.Machine
end

section
/-! Control transfer (spec/41_control_flow.md). -/

namespace Sys2Proof.Machine

/-- The word that an address operand becomes names the same address (R73). -/
@[simp] theorem toNat_addrWord (nnn : Addr) : (addrWord nnn).toNat = nnn.toNat := by
  rw [addrWord, BitVec.toNat_setWidth_of_le (by decide)]

/-- A jump keeps every general register (R98). -/
theorem keepsRegsBut_jump (s : State) (target : Word) : KeepsRegsBut [] s (s.jump target) :=
  keepsRegsBut_of_eq (State.jump_v s target) []

/-- A jump keeps every piece of state, the fault status included (R98). -/
theorem keepsBut_jump (s : State) (target : Word) : KeepsBut [] s (s.jump target) :=
  keepsBut_of_regs_pc s s.v target s.draws

/-- JP is a jump to its operand (R108). -/
theorem exec_jp (nnn : Addr) (s : State) : exec (.jp nnn) s = .next (s.jump (addrWord nnn)) := rfl

/-- The word of JP as a number (R71). -/
theorem toNat_encode_jp (nnn : Addr) : (encode (.jp nnn)).toNat = 0x1000 + nnn.toNat :=
  toNat_encodeNNN 0x1 nnn

/-- Settles O26: JP's word by the law of the shape NNN; its meaning is a jump, which writes pc alone. -/
theorem jumpReplacesPc : Obligations.JumpReplacesPc := by
  intro nnn s
  refine ⟨toNat_encode_jp nnn, s.jump (addrWord nnn), exec_jp nnn s, ?_, keepsRegsBut_jump s _, keepsBut_jump s _⟩
  rw [State.jump_pc, toNat_addrWord]

end Sys2Proof.Machine
end

section
/-! Conditional skips (spec/42_skip.md). -/

namespace Sys2Proof.Machine

/-- A skip taken exactly when `p` holds is the default advance, and 2 bytes more when `p` holds (R115). -/
theorem State.advanceSkip_of_iff (s : State) {taken : Bool} {p : Prop} [Decidable p] (h : taken = true ↔ p) :
    s.advanceSkip taken = { s with pc := if p then s.pc + 2#16 + 2#16 else s.pc + 2#16 } := by
  have two_words : s.pc + 2#16 + 2#16 = s.pc + 4#16 := BitVec.add_assoc s.pc 2#16 2#16
  rw [State.advanceSkip_eq, two_words]
  simp only [h]

/-- A skip taken exactly when `p` fails (R115). -/
theorem State.advanceSkip_of_iff_not (s : State) {taken : Bool} {p : Prop} [Decidable p] (h : taken = true ↔ ¬ p) :
    s.advanceSkip taken = { s with pc := if p then s.pc + 2#16 else s.pc + 2#16 + 2#16 } := by
  rw [s.advanceSkip_of_iff h, ite_not]

section
variable (x y : Reg) (nn : Byte) (s : State)

/-- The word of SE with an immediate as a number (R116). -/
theorem toNat_encode_seImm : (encode (.seImm x nn)).toNat = 0x3000 + x.val * 256 + nn.toNat :=
  toNat_encodeXNN 0x3 x nn

/-- The word of SNE with an immediate as a number (R117). -/
theorem toNat_encode_sneImm : (encode (.sneImm x nn)).toNat = 0x4000 + x.val * 256 + nn.toNat :=
  toNat_encodeXNN 0x4 x nn

/-- The word of SE with two registers as a number (R118). -/
theorem toNat_encode_seReg : (encode (.seReg x y)).toNat = 0x5000 + x.val * 256 + y.val * 16 :=
  toNat_encodeXYN 0x5 x y 0x0

/-- The word of SNE with two registers as a number (R119). -/
theorem toNat_encode_sneReg : (encode (.sneReg x y)).toNat = 0x9000 + x.val * 256 + y.val * 16 :=
  toNat_encodeXYN 0x9 x y 0x0

/-- SE with an immediate skips when Vx is NN (R116). -/
theorem exec_seImm : exec (.seImm x nn) s =
    .next { s with pc := if s.readV x = nn then s.pc + 2#16 + 2#16 else s.pc + 2#16 } :=
  congrArg Host.Outcome.next (s.advanceSkip_of_iff beq_iff_eq)

/-- SNE with an immediate skips unless Vx is NN (R117). -/
theorem exec_sneImm : exec (.sneImm x nn) s =
    .next { s with pc := if s.readV x = nn then s.pc + 2#16 else s.pc + 2#16 + 2#16 } :=
  congrArg Host.Outcome.next (s.advanceSkip_of_iff_not bne_iff_ne)

/-- SE with two registers skips when they are equal (R118). -/
theorem exec_seReg : exec (.seReg x y) s =
    .next { s with pc := if s.readV x = s.readV y then s.pc + 2#16 + 2#16 else s.pc + 2#16 } :=
  congrArg Host.Outcome.next (s.advanceSkip_of_iff beq_iff_eq)

/-- SNE with two registers skips unless they are equal (R119). -/
theorem exec_sneReg : exec (.sneReg x y) s =
    .next { s with pc := if s.readV x = s.readV y then s.pc + 2#16 else s.pc + 2#16 + 2#16 } :=
  congrArg Host.Outcome.next (s.advanceSkip_of_iff_not bne_iff_ne)

end

/-- Settles O32: the four words by the laws of their shapes, the four meanings by the rule of a skip, which
writes pc alone. -/
theorem skipsCompareRegisters : Obligations.SkipsCompareRegisters := by
  intro x y nn s
  exact ⟨toNat_encode_seImm x nn, toNat_encode_sneImm x nn, toNat_encode_seReg x y, toNat_encode_sneReg x y,
    exec_seImm x nn s, exec_sneImm x nn s, exec_seReg x y s, exec_sneReg x y s⟩

end Sys2Proof.Machine
end

section
/-! Loads and the additive ALU instructions (spec/43_alu.md). -/

namespace Sys2Proof.Machine

/-- The carry as a number: 1 exactly when the sum leaves the byte (R131). -/
theorem toNat_carryFlag (a b : Byte) : (carryFlag a b).toNat = if 255 < a.toNat + b.toNat then 1 else 0 := by
  simp only [carryFlag, toNat_flagByte, decide_eq_true_eq]

/-- NOT borrow as a number: 1 exactly when nothing is borrowed (R132). -/
theorem toNat_notBorrowFlag (a b : Byte) : (notBorrowFlag a b).toNat = if b.toNat ≤ a.toNat then 1 else 0 := by
  simp only [notBorrowFlag, toNat_flagByte, decide_eq_true_eq]

section
variable (x y : Reg) (nn result flag : Byte) (s : State)

/-- The word of LD with an immediate as a number (R125). -/
theorem toNat_encode_ldImm : (encode (.ldImm x nn)).toNat = 0x6000 + x.val * 256 + nn.toNat :=
  toNat_encodeXNN 0x6 x nn

/-- The word of ADD with an immediate as a number (R126). -/
theorem toNat_encode_addImm : (encode (.addImm x nn)).toNat = 0x7000 + x.val * 256 + nn.toNat :=
  toNat_encodeXNN 0x7 x nn

/-- The word of LD with two registers as a number (R127). -/
theorem toNat_encode_ldReg : (encode (.ldReg x y)).toNat = 0x8000 + x.val * 256 + y.val * 16 :=
  toNat_encodeXYN 0x8 x y 0x0

/-- The word of ADD with two registers as a number (R131). -/
theorem toNat_encode_addReg : (encode (.addReg x y)).toNat = 0x8004 + x.val * 256 + y.val * 16 := by
  have word : (encode (.addReg x y)).toNat = 0x8000 + x.val * 256 + y.val * 16 + 4 := toNat_encodeXYN 0x8 x y 0x4
  omega

/-- The word of SUB as a number (R132). -/
theorem toNat_encode_sub : (encode (.sub x y)).toNat = 0x8005 + x.val * 256 + y.val * 16 := by
  have word : (encode (.sub x y)).toNat = 0x8000 + x.val * 256 + y.val * 16 + 5 := toNat_encodeXYN 0x8 x y 0x5
  omega

/-- LD with an immediate writes NN (R125). -/
theorem exec_ldImm : exec (.ldImm x nn) s = .next (s.advance.writeV x nn) := rfl

/-- ADD with an immediate writes the sum and no flag (R126). -/
theorem exec_addImm : exec (.addImm x nn) s = .next (s.advance.writeV x (sumByte (s.readV x) nn)) := rfl

/-- LD with two registers writes Vy (R127). -/
theorem exec_ldReg : exec (.ldReg x y) s = .next (s.advance.writeV x (s.readV y)) := rfl

/-- ADD with two registers writes the sum, then the carry (R131). -/
theorem exec_addReg : exec (.addReg x y) s =
    .next (s.advance.writeResultThenFlag x (sumByte (s.readV x) (s.readV y)) (carryFlag (s.readV x) (s.readV y))) := rfl

/-- SUB writes the difference, then NOT borrow (R132). -/
theorem exec_sub : exec (.sub x y) s =
    .next (s.advance.writeResultThenFlag x (diffByte (s.readV x) (s.readV y)) (notBorrowFlag (s.readV x) (s.readV y))) :=
  rfl

/-- An instruction that only writes Vx: the default advance, and every other register and piece kept. -/
theorem frame_advance_writeV :
    (s.advance.writeV x result).pc = s.pc + 2#16 ∧ KeepsRegsBut [x] s (s.advance.writeV x result) ∧
      KeepsBut [] s (s.advance.writeV x result) :=
  ⟨rfl, keepsRegsBut_writeV s.advance x result, keepsBut_of_regs_pc s _ _ s.draws⟩

/-- An instruction that only writes Vx and VF: the default advance, and every other register and piece kept. -/
theorem frame_advance_writeResultThenFlag :
    (s.advance.writeResultThenFlag x result flag).pc = s.pc + 2#16 ∧
      KeepsRegsBut [x, 15] s (s.advance.writeResultThenFlag x result flag) ∧
      KeepsBut [] s (s.advance.writeResultThenFlag x result flag) :=
  ⟨rfl, keepsRegsBut_writeResultThenFlag s.advance x result flag, keepsBut_of_regs_pc s _ _ s.draws⟩

end

/-- Settles O34: the words by the laws of their shapes; each meaning is one write of Vx after the default
advance. -/
theorem loadsAndImmediateAdd : Obligations.LoadsAndImmediateAdd := by
  intro x y nn s
  refine ⟨toNat_encode_ldImm x nn, toNat_encode_addImm x nn, toNat_encode_ldReg x y, ?ldImm, ?addImm, ?ldReg⟩
  case ldImm => exact ⟨_, exec_ldImm x nn s, State.readV_writeV_self _ x nn, frame_advance_writeV x nn s⟩
  case addImm =>
    refine ⟨_, exec_addImm x nn s, ?_, frame_advance_writeV x _ s⟩
    rw [State.readV_writeV_self, toNat_sumByte]
  case ldReg => exact ⟨_, exec_ldReg x y s, State.readV_writeV_self _ x _, frame_advance_writeV x _ s⟩

/-- Settles O36: VF is read after the last write, which is the carry's; Vx holds the sum where that write did not
go to it. -/
theorem addSetsVfToTheCarry : Obligations.AddSetsVfToTheCarry := by
  intro x y s
  refine ⟨toNat_encode_addReg x y, _, exec_addReg x y s, ?flag, fun hx => ?sum,
    frame_advance_writeResultThenFlag x _ _ s⟩
  case flag => rw [show (15 : Reg) = regVF from rfl, State.readV_writeResultThenFlag_vf, toNat_carryFlag]
  case sum => rw [State.readV_writeResultThenFlag_dest _ x _ _ hx, toNat_sumByte]

/-- Settles O37: as for ADD, with the difference and NOT borrow. -/
theorem subSetsVfToNotBorrow : Obligations.SubSetsVfToNotBorrow := by
  intro x y s
  refine ⟨toNat_encode_sub x y, _, exec_sub x y s, ?flag, fun hx => ?difference,
    frame_advance_writeResultThenFlag x _ _ s⟩
  case flag => rw [show (15 : Reg) = regVF from rfl, State.readV_writeResultThenFlag_vf, toNat_notBorrowFlag]
  case difference => rw [State.readV_writeResultThenFlag_dest _ x _ _ hx, toNat_diffByte]

end Sys2Proof.Machine
end

section
/-! The index register (spec/44_index_memory.md). -/

namespace Sys2Proof.Machine

/-- An update of I and pc keeps every piece but I. -/
theorem keepsBut_of_index_pc (s : State) (index pc : Word) : KeepsBut [.index] s { s with i := index, pc := pc } := by
  intro p hp
  cases p
  case index => exact absurd (List.mem_singleton_self Piece.index) hp
  case memory => exact fun _ => rfl
  case wait => exact ⟨rfl, rfl⟩
  all_goals rfl

/-- An instruction that only writes I: the default advance, and every register and every other piece kept. -/
theorem frame_advance_index (s : State) (index : Word) :
    { s.advance with i := index }.pc = s.pc + 2#16 ∧ KeepsRegsBut [] s { s.advance with i := index } ∧
      KeepsBut [.index] s { s.advance with i := index } :=
  ⟨s.advance_pc, keepsRegsBut_of_eq s.advance_v [], keepsBut_of_index_pc s index (s.pc + 2#16)⟩

/-- The word of LD I as a number (R145). -/
theorem toNat_encode_ldI (nnn : Addr) : (encode (.ldI nnn)).toNat = 0xA000 + nnn.toNat :=
  toNat_encodeNNN 0xA nnn

/-- LD I writes its operand to I after the default advance, for every operand (R145). -/
theorem exec_ldI (nnn : Addr) (s : State) : exec (.ldI nnn) s = .next { s.advance with i := addrWord nnn } := rfl

/-- Settles O41: the word by the law of the shape NNN; the meaning is one write of I, whose word names the same
address as the operand. -/
theorem loadIndexSetsI : Obligations.LoadIndexSetsI := by
  intro nnn s
  exact ⟨toNat_encode_ldI nnn, _, exec_ldI nnn s, toNat_addrWord nnn, frame_advance_index s (addrWord nnn)⟩

end Sys2Proof.Machine
end

section
/-! Display (spec/45_display.md). -/

namespace Sys2Proof.Machine

/-! ## Who writes the screen -/

/-- The display instructions are the only ones whose rule writes the framebuffer or the redraw flag (R155). -/
theorem display_of_mem_writtenPieces {i : Instr} {p : Piece} (hp : p = .screen ∨ p = .redraw)
    (h : p ∈ writtenPieces i) : i = .cls ∨ ∃ x y n, i = .drw x y n := by
  cases i
  case cls => exact .inl rfl
  case drw x y n => exact .inr ⟨x, y, n, rfl⟩
  all_goals exact absurd h (by rcases hp with rfl | rfl <;> simp [writtenPieces])

/-- A step keeps the framebuffer and the redraw flag, or it runs a display instruction (R155). -/
theorem step_keeps_or_runs_display {s t : State} (h : step s = .next t) {p : Piece}
    (hp : p = .screen ∨ p = .redraw) : p.Kept s t ∨ s.Runs .cls ∨ ∃ x y n, s.Runs (.drw x y n) := by
  have apart : p ≠ .fault ∧ p ≠ .delay ∧ p ≠ .sound ∧ p ≠ .wait := by rcases hp with rfl | rfl <;> decide
  obtain ⟨hfault, hdelay, hsound, hwait⟩ := apart
  obtain hkept | ⟨i, hruns, hmem⟩ := step_frame h p hfault hdelay hsound hwait
  · exact .inl hkept
  · obtain rfl | ⟨x, y, n, rfl⟩ := display_of_mem_writtenPieces hp hmem
    · exact .inr (.inl hruns)
    · exact .inr (.inr ⟨x, y, n, hruns⟩)

/-- Settles O19: a step that changed either piece did not keep it, so it ran a display instruction; 00E0 is a fixed
word. -/
theorem onlyDisplayInstructionsWriteTheScreen : Obligations.OnlyDisplayInstructionsWriteTheScreen := by
  refine ⟨fun s t hstep hchanged => ?_, rfl, rfl⟩
  rcases hchanged with hfb | hredraw
  · exact (step_keeps_or_runs_display hstep (.inl rfl)).resolve_left hfb
  · exact (step_keeps_or_runs_display hstep (.inr rfl)).resolve_left hredraw

/-! ## DRW -/

/-- An update of registers, pc, the framebuffer and the redraw flag keeps every other piece. -/
theorem keepsBut_of_regs_pc_screen (s : State) (v : Vector Byte 16) (pc : Word) (fb : Screen) (redraw : Bool) :
    KeepsBut [.screen, .redraw] s { s with v := v, pc := pc, fb := fb, redraw := redraw } := by
  intro p hp
  cases p
  case screen => simp at hp
  case redraw => simp at hp
  case memory => exact fun _ => rfl
  case wait => exact ⟨rfl, rfl⟩
  all_goals rfl

/-- The state that a draw inside memory leaves (R158). -/
def drawnState (x y : Reg) (n : Nibble) (s : State) : State :=
  { s.advance.writeV regVF (flagByte (toggleCells (drawnCells x y n s) s.fb false).2) with
    fb := (toggleCells (drawnCells x y n s) s.fb false).1
    redraw := true }

section
variable (x y : Reg) (n : Nibble) (s : State)

/-- The word of DRW as a number (R158). -/
theorem toNat_encode_drw : (encode (.drw x y n)).toNat = 0xD000 + x.val * 256 + y.val * 16 + n.toNat :=
  toNat_encodeXYN 0xD x y n

/-- DRW is a checked access to its N sprite bytes, from I on (R157, R158). -/
theorem exec_drw : exec (.drw x y n) s =
    .next (s.checked (encode (.drw x y n)) s.i.toNat n.toNat (drawnState x y n s)) := rfl

/-- A cell after a draw: toggled exactly when the draw has it in its list. -/
theorem cell_drawnState (px py : Nat) : (drawnState x y n s).fb.cell px py =
    (s.fb.cell px py ^^ decide ((px, py) ∈ drawnCells x y n s)) :=
  cell_toggleCells (drawnCells_inside x y n s) (nodup_drawnCells x y n s) s.fb false px py

/-- A draw changes the cells of its list and no other. -/
theorem cell_drawnState_ne_iff (px py : Nat) :
    (drawnState x y n s).fb.cell px py ≠ s.fb.cell px py ↔ (px, py) ∈ drawnCells x y n s := by
  rw [cell_drawnState]
  by_cases h : (px, py) ∈ drawnCells x y n s <;> simp [h]

/-- A cell goes from on to off exactly when it was on and the draw has it in its list. -/
theorem erased_by_draw_iff (px py : Nat) :
    (s.fb.cell px py = true ∧ (drawnState x y n s).fb.cell px py = false) ↔
      (px, py) ∈ drawnCells x y n s ∧ s.fb.cell px py = true := by
  rw [cell_drawnState, and_comm]
  refine and_congr_left fun hon => ?_
  simp [hon]

/-- After a draw VF holds its collision flag. -/
theorem readV_drawnState_vf : (drawnState x y n s).readV 15 =
    flagByte (toggleCells (drawnCells x y n s) s.fb false).2 :=
  State.readV_writeV_self s.advance regVF _

/-- VF is the collision: 1 exactly when some cell on the screen went from on to off (R158). -/
theorem readV_drawnState_vf_eq_one_iff : (drawnState x y n s).readV 15 = 1#8 ↔
    ∃ px py, px < 64 ∧ py < 32 ∧ s.fb.cell px py = true ∧ (drawnState x y n s).fb.cell px py = false := by
  rw [readV_drawnState_vf, flagByte_eq_one, hit_toggleCells (drawnCells_inside x y n s) (nodup_drawnCells x y n s)]
  simp only [erased_by_draw_iff, Bool.false_eq_true, false_or, Prod.exists]
  refine exists_congr fun px => exists_congr fun py => ⟨fun h => ?_, fun ⟨_, _, h⟩ => h⟩
  obtain ⟨hx, hy⟩ := drawnCells_inside x y n s (px, py) h.1
  exact ⟨hx, hy, h⟩

/-- After a draw VF is 0 or 1. -/
theorem readV_drawnState_vf_eq_zero_or_one :
    (drawnState x y n s).readV 15 = 0#8 ∨ (drawnState x y n s).readV 15 = 1#8 := by
  rw [readV_drawnState_vf]
  cases (toggleCells (drawnCells x y n s) s.fb false).2
  · exact .inl rfl
  · exact .inr rfl

/-- Beside VF, the framebuffer and the redraw flag a draw only advances pc. -/
theorem frame_drawnState : (drawnState x y n s).pc = s.pc + 2#16 ∧ KeepsRegsBut [15] s (drawnState x y n s) ∧
    KeepsBut [.screen, .redraw] s (drawnState x y n s) :=
  ⟨rfl, keepsRegsBut_writeV s.advance regVF _, keepsBut_of_regs_pc_screen s _ _ _ true⟩

end

/-- Settles O50: inside memory the cells of the sprite are what the draw's list holds, and the collision flag is
that one of them was on; outside memory the checked access only records its fault. -/
theorem drawTogglesExactlyTheSprite : Obligations.DrawTogglesExactlyTheSprite := by
  intro x y n s
  refine ⟨toNat_encode_drw x y n, fun hinside => ?inside, fun hn hi => ?outside⟩
  case inside =>
    refine ⟨drawnState x y n s, ?_, fun px py _ _ => ?_, readV_drawnState_vf_eq_one_iff x y n s,
      readV_drawnState_vf_eq_zero_or_one x y n s, rfl, frame_drawnState x y n s⟩
    · rw [exec_drw, State.checked_inside hinside]
    · rw [cell_drawnState_ne_iff, mem_drawnCells]
  case outside =>
    refine ⟨s.raise .memoryOutOfBounds (some (encode (.drw x y n))) (some (max s.i.toNat memSize)), ?_, rfl⟩
    rw [exec_drw, State.checked_outside ⟨hn, hi⟩]

end Sys2Proof.Machine
end

section
/-! Timers (spec/46_timers_keys.md). -/

namespace Sys2Proof.Machine

/-- An instruction that completed with the default advance wrote no piece but its own: a fault would have kept
pc (R180). -/
theorem keepsBut_writtenPieces_of_advance {i : Instr} {s t : State} (h : exec i s = .next t)
    (hpc : t.pc = s.pc + 2#16) : KeepsBut (writtenPieces i) s t := by
  obtain hkeeps | ⟨kind, op, info, rfl⟩ := exec_frame h
  · exact hkeeps
  · rw [State.raise_pc] at hpc
    bv_omega

/-- The step of a state that runs an instruction which raises no fault: its meaning, then the decay (R94, R96). -/
theorem step_of_runs_ok {i : Instr} {s t : State} (hruns : s.Runs i) (h : exec i s = .next t) (ht : t.fault = none) :
    step s = .next (decayTimers t) := by
  rw [step_of_runs hruns, h, finishCycle, endCycle_ok ht]

section
variable (x : Reg) (s : State)

/-- The word of LD Vx, DT as a number (R165). -/
theorem toNat_encode_ldVxDT : (encode (.ldVxDT x)).toNat = 0xF007 + x.val * 256 := by
  have word : (encode (.ldVxDT x)).toNat = 0xF000 + x.val * 256 + 0x07 := toNat_encodeXNN 0xF x 0x07
  omega

/-- The word of LD DT, Vx as a number (R167). -/
theorem toNat_encode_ldDTVx : (encode (.ldDTVx x)).toNat = 0xF015 + x.val * 256 := by
  have word : (encode (.ldDTVx x)).toNat = 0xF000 + x.val * 256 + 0x15 := toNat_encodeXNN 0xF x 0x15
  omega

/-- The word of LD ST, Vx as a number (R168). -/
theorem toNat_encode_ldSTVx : (encode (.ldSTVx x)).toNat = 0xF018 + x.val * 256 := by
  have word : (encode (.ldSTVx x)).toNat = 0xF000 + x.val * 256 + 0x18 := toNat_encodeXNN 0xF x 0x18
  omega

/-- LD Vx, DT writes Vx alone (R165). -/
theorem exec_ldVxDT : exec (.ldVxDT x) s = .next (s.advance.writeV x s.dt) := rfl

/-- LD DT, Vx writes DT alone (R167). -/
theorem exec_ldDTVx : exec (.ldDTVx x) s = .next { s.advance with dt := s.readV x } := rfl

/-- LD ST, Vx writes ST alone (R168). -/
theorem exec_ldSTVx : exec (.ldSTVx x) s = .next { s.advance with st := s.readV x } := rfl

/-- LD DT, Vx keeps every register and every piece but the delay timer. -/
theorem frame_ldDTVx : { s.advance with dt := s.readV x }.pc = s.pc + 2#16 ∧
    KeepsRegsBut [] s { s.advance with dt := s.readV x } ∧ KeepsBut [.delay] s { s.advance with dt := s.readV x } :=
  ⟨s.advance_pc, keepsRegsBut_of_eq s.advance_v [], keepsBut_writtenPieces_of_advance (exec_ldDTVx x s) s.advance_pc⟩

/-- LD ST, Vx keeps every register and every piece but the sound timer. -/
theorem frame_ldSTVx : { s.advance with st := s.readV x }.pc = s.pc + 2#16 ∧
    KeepsRegsBut [] s { s.advance with st := s.readV x } ∧ KeepsBut [.sound] s { s.advance with st := s.readV x } :=
  ⟨s.advance_pc, keepsRegsBut_of_eq s.advance_v [], keepsBut_writtenPieces_of_advance (exec_ldSTVx x s) s.advance_pc⟩

end

/-- Settles O53: each meaning is one write of its timer after the default advance; the step then decays the value
just written, since the running state had no fault and the write raises none. -/
theorem setTimersThenDecay : Obligations.SetTimersThenDecay := by
  intro x s
  refine ⟨toNat_encode_ldDTVx x, toNat_encode_ldSTVx x, ⟨_, exec_ldDTVx x s, rfl, frame_ldDTVx x s⟩,
    ⟨_, exec_ldSTVx x s, rfl, frame_ldSTVx x s⟩, fun hruns => ?delay, fun hruns => ?sound⟩
  case delay =>
    obtain ⟨hfault, -⟩ := State.runs_iff.1 hruns
    exact ⟨_, step_of_runs_ok hruns (exec_ldDTVx x s) hfault, toNat_decayTimer (s.readV x)⟩
  case sound =>
    obtain ⟨hfault, -⟩ := State.runs_iff.1 hruns
    exact ⟨_, step_of_runs_ok hruns (exec_ldSTVx x s) hfault, toNat_decayTimer (s.readV x)⟩

/-- Settles O52: Vx is written from DT as it stood; the decay of the step comes after and leaves the registers. -/
theorem readDelayTimerBeforeDecay : Obligations.ReadDelayTimerBeforeDecay := by
  intro x s
  have hread : (s.advance.writeV x s.dt).readV x = s.dt := State.readV_writeV_self s.advance x s.dt
  refine ⟨toNat_encode_ldVxDT x, ⟨_, exec_ldVxDT x s, hread, frame_advance_writeV x s.dt s⟩, fun hruns => ?_⟩
  obtain ⟨hfault, -⟩ := State.runs_iff.1 hruns
  exact ⟨_, step_of_runs_ok hruns (exec_ldVxDT x s) hfault, hread, toNat_decayTimer s.dt⟩

end Sys2Proof.Machine
end

section
/-! Reset and load (spec/70_reset_and_hazards.md). -/

namespace Sys2Proof.Machine

/-- An update of memory and the model's own counter keeps every piece but memory. -/
theorem keepsBut_of_memory_draws (s : State) (mem : Memory) (d : Nat) :
    KeepsBut [.memory] s { s with mem := mem, draws := d } := by
  intro p hp
  cases p
  case memory => exact absurd (List.mem_singleton_self _) hp
  case wait => exact ⟨rfl, rfl⟩
  all_goals rfl

/-- The state that a load of `image` leaves: reset but for the image in memory, and for the model's own counter,
which goes on (R203; assumption log 7). -/
def loadedState (image : List Byte) (s : State) : State :=
  { State.reset with mem := State.reset.mem.writeBytes loadAddr image, draws := s.draws }

/-- A load whose source cannot be read fails and changes nothing (R200, R201). -/
theorem load_readFailure (s : State) : load .readFailure s = (some .imageReadError, s) := rfl

section
variable {image : List Byte}

/-- A load of an image longer than MAX_IMAGE fails and changes nothing (R199, R201). -/
theorem load_tooLarge (h : maxImage < image.length) (s : State) :
    load (.bytes image) s = (some .imageTooLarge, s) := by
  rw [load, if_pos h]

/-- A load of an image of at most MAX_IMAGE bytes succeeds (R199, R203). -/
theorem load_fits (h : image.length ≤ maxImage) (s : State) :
    load (.bytes image) s = (none, loadedState image s) := by
  rw [load, if_neg (Nat.not_lt.2 h)]
  rfl

/-- After a load the image's bytes stand from LOAD_ADDR on, and every other byte has its reset contents (R203). -/
theorem read_loadedState (h : image.length ≤ maxImage) (s : State) (a : Nat) :
    (loadedState image s).mem.read a =
      if loadAddr ≤ a ∧ a < loadAddr + image.length then image.getD (a - loadAddr) 0#8 else State.reset.mem.read a :=
  have ends_in_memory : loadAddr + image.length ≤ memSize := Nat.add_le_of_le_sub' (by decide) h
  Memory.read_writeBytes Memory.wf_nil image ends_in_memory a

end

/-- Settles O58: one equation of `load` for each of its three outcomes; the image ends inside memory, so its bytes
read back, and the loaded state differs from reset in memory alone. -/
theorem loadPlacesTheImageInAResetMachine : Obligations.LoadPlacesTheImageInAResetMachine := by
  intro s
  refine ⟨load_readFailure s, fun image hlarge => load_tooLarge hlarge s, fun image hfits => ?fits⟩
  case fits =>
    exact ⟨loadedState image s, load_fits hfits s, read_loadedState hfits s, rfl,
      keepsRegsBut_of_eq rfl [], keepsBut_of_memory_draws State.reset _ s.draws⟩

end Sys2Proof.Machine
end

section
/-! The decoder and the encoder (spec/30_encoding.md). -/

namespace Sys2Proof

/-! ## Decoding an encoded instruction -/

/-- A family 0 word that carries neither the address of CLS nor that of RET is SYS (R75). -/
theorem decodeWord_encode_sys {nnn : Addr} (h : (Instr.sys nnn).wellFormed = true) :
    decodeWord (encode (.sys nnn)) = .instr (.sys nnn) := by
  obtain ⟨hcls, hret⟩ : nnn ≠ 0x0E0#12 ∧ nnn ≠ 0x0EE#12 := by simpa [Instr.wellFormed] using h
  have word_ne : ∀ {a : Addr}, nnn ≠ a → encodeNNN 0x0 nnn ≠ encodeNNN 0x0 a := fun hne heq =>
    hne (by rw [← fieldNNN_encodeNNN 0x0 nnn, heq, fieldNNN_encodeNNN])
  have hcls' : encodeNNN 0x0 nnn ≠ 0x00E0#16 := word_ne hcls
  have hret' : encodeNNN 0x0 nnn ≠ 0x00EE#16 := word_ne hret
  have hfamily : decodeWord (encodeNNN 0x0 nnn) = decodeFamily0 (encodeNNN 0x0 nnn) := by
    simp [decodeWord, fieldFamily_encodeNNN]
  rw [encode, hfamily, decodeFamily0, if_neg hcls', if_neg hret', fieldNNN_encodeNNN]

/-- Every well-formed instruction is what its word decodes to: the fields of its shape read back (R71, R72), and
its family's table then selects it (R74 to R78). -/
theorem decodeWord_encode {i : Instr} (h : i.wellFormed = true) : decodeWord (encode i) = .instr i := by
  cases i
  case cls | ret => rfl
  case sys nnn => exact decodeWord_encode_sys h
  case jp nnn | call nnn | ldI nnn | jpV0 nnn =>
    simp [encode, decodeWord, fieldFamily_encodeNNN, fieldNNN_encodeNNN]
  case seImm x nn | sneImm x nn | ldImm x nn | addImm x nn | rnd x nn =>
    simp [encode, decodeWord, fieldFamily_encodeXNN, fieldX_encodeXNN, fieldNN_encodeXNN]
  case seReg x y | sneReg x y =>
    simp [encode, decodeWord, fieldFamily_encodeXYN, fieldX_encodeXYN, fieldY_encodeXYN, fieldN_encodeXYN]
  case drw x y n =>
    simp [encode, decodeWord, fieldFamily_encodeXYN, fieldX_encodeXYN, fieldY_encodeXYN, fieldN_encodeXYN]
  case ldReg x y | orReg x y | andReg x y | xorReg x y | addReg x y | sub x y | shr x y | subn x y | shl x y =>
    simp [encode, decodeWord, decodeFamily8, fieldFamily_encodeXYN, fieldX_encodeXYN, fieldY_encodeXYN,
      fieldN_encodeXYN]
  case skp x | sknp x =>
    simp [encode, decodeWord, decodeFamilyE, fieldFamily_encodeXNN, fieldX_encodeXNN, fieldNN_encodeXNN]
  case ldVxDT x | ldVxK x | ldDTVx x | ldSTVx x | addIVx x | ldFVx x | ldBVx x | ldMemVx x | ldVxMem x =>
    simp [encode, decodeWord, decodeFamilyF, fieldFamily_encodeXNN, fieldX_encodeXNN, fieldNN_encodeXNN]

/-- Settles O1: the bytes of a word decode as the word, and the word of an instruction decodes to it. -/
theorem decodeOfEncodeIsTheInstruction : Obligations.DecodeOfEncodeIsTheInstruction := by
  intro i h
  rw [decode_bytesOfWord, decodeWord_encode h]

/-! ## Encoding a decoded word -/

section
variable {op : Word} {i : Instr}

/-- What family 0 decodes to encodes to the word; SYS is what is left beside CLS and RET (R75). -/
theorem encode_of_decodeFamily0 (hf : fieldFamily op = 0x0) (h : decodeFamily0 op = .instr i) :
    encode i = op ∧ i.wellFormed = true := by
  have hword : encodeNNN 0x0 (fieldNNN op) = op := encodeNNN_fields hf
  unfold decodeFamily0 at h
  split at h
  · cases h; exact ⟨‹op = _›.symm, rfl⟩
  split at h
  · cases h; exact ⟨‹op = _›.symm, rfl⟩
  · cases h
    refine ⟨hword, ?_⟩
    have field_ne : ∀ a : Addr, op ≠ encodeNNN 0x0 a → fieldNNN op ≠ a := fun a hne heq => hne (by rw [← heq, hword])
    have hcls := field_ne 0x0E0#12 ‹_›
    have hret := field_ne 0x0EE#12 ‹_›
    simp [Instr.wellFormed, hcls, hret]

/-- What family 8 decodes to encodes to the word (R76). -/
theorem encode_of_decodeFamily8 (hf : fieldFamily op = 0x8) (h : decodeFamily8 op = .instr i) :
    encode i = op ∧ i.wellFormed = true := by
  unfold decodeFamily8 at h
  split at h
  case h_10 => cases h
  all_goals cases h; exact ⟨encodeXYN_fields hf ‹_›, rfl⟩

/-- What family E decodes to encodes to the word (R77). -/
theorem encode_of_decodeFamilyE (hf : fieldFamily op = 0xE) (h : decodeFamilyE op = .instr i) :
    encode i = op ∧ i.wellFormed = true := by
  unfold decodeFamilyE at h
  split_ifs at h
  all_goals cases h; exact ⟨encodeXNN_fields hf ‹_›, rfl⟩

/-- What family F decodes to encodes to the word (R78). -/
theorem encode_of_decodeFamilyF (hf : fieldFamily op = 0xF) (h : decodeFamilyF op = .instr i) :
    encode i = op ∧ i.wellFormed = true := by
  unfold decodeFamilyF at h
  split_ifs at h
  all_goals cases h; exact ⟨encodeXNN_fields hf ‹_›, rfl⟩

/-- Families 5 and 9, which select on N = 0 alone (R74). -/
theorem encode_of_registerPair {f : Nibble} {j : Instr} (hf : fieldFamily op = f.toNat)
    (hj : encode j = encodeXYN f (fieldX op) (fieldY op) 0x0) (hwf : j.wellFormed = true)
    (h : (if fieldN op = 0#4 then Decoded.instr j else .illegal op) = .instr i) :
    encode i = op ∧ i.wellFormed = true := by
  split_ifs at h with hn
  cases h
  exact ⟨hj.trans (encodeXYN_fields hf (congrArg BitVec.toNat hn)), hwf⟩

/-- A word that decodes to an instruction is that instruction's word: each family keeps every bit of it (R74). -/
theorem encode_of_decodeWord (h : decodeWord op = .instr i) : encode i = op ∧ i.wellFormed = true := by
  unfold decodeWord at h
  split at h
  next hf => exact encode_of_decodeFamily0 hf h
  next hf => cases h; exact ⟨encodeNNN_fields hf, rfl⟩
  next hf => cases h; exact ⟨encodeNNN_fields hf, rfl⟩
  next hf => cases h; exact ⟨encodeXNN_fields hf rfl, rfl⟩
  next hf => cases h; exact ⟨encodeXNN_fields hf rfl, rfl⟩
  next hf => exact encode_of_registerPair (f := 0x5) hf rfl rfl h
  next hf => cases h; exact ⟨encodeXNN_fields hf rfl, rfl⟩
  next hf => cases h; exact ⟨encodeXNN_fields hf rfl, rfl⟩
  next hf => exact encode_of_decodeFamily8 hf h
  next hf => exact encode_of_registerPair (f := 0x9) hf rfl rfl h
  next hf => cases h; exact ⟨encodeNNN_fields hf, rfl⟩
  next hf => cases h; exact ⟨encodeNNN_fields hf, rfl⟩
  next hf => cases h; exact ⟨encodeXNN_fields hf rfl, rfl⟩
  next hf => cases h; exact ⟨encodeXYN_fields hf rfl, rfl⟩
  next hf => exact encode_of_decodeFamilyE hf h
  next hf => exact encode_of_decodeFamilyF hf h
  next => cases h

end

/-- Settles O2: by the word's family. -/
theorem encodeOfDecodeIsTheWord : Obligations.EncodeOfDecodeIsTheWord := fun _ _ h => encode_of_decodeWord h

/-! ## The illegal space -/

/-- The decoder answers no instruction with an effect: the illegal space, SYS included (R80). -/
def Decoded.Rejects (d : Decoded) (op : Word) : Prop := d = .illegal op ∨ ∃ nnn, d = .instr (.sys nnn)

/-- An illegal word is rejected. -/
@[simp] theorem rejects_illegal (op : Word) : (Decoded.illegal op).Rejects op := .inl rfl

/-- Of the instructions only SYS is rejected. -/
@[simp] theorem rejects_instr_iff (i : Instr) (op : Word) : (Decoded.instr i).Rejects op ↔ ∃ nnn, i = .sys nnn := by
  simp [Decoded.Rejects]

section
variable (op : Word)

/-- The illegal words of family 0 (R80, D7). -/
theorem decodeFamily0_rejects_iff : (decodeFamily0 op).Rejects op ↔ op.toNat ≠ 0x00E0 ∧ op.toNat ≠ 0x00EE := by
  have hcls : op = 0x00E0#16 ↔ op.toNat = 0x00E0 := BitVec.toNat_inj.symm
  have hret : op = 0x00EE#16 ↔ op.toNat = 0x00EE := BitVec.toNat_inj.symm
  unfold decodeFamily0
  split_ifs <;> simp_all

/-- The illegal words of family 8 (R80). -/
theorem decodeFamily8_rejects_iff :
    (decodeFamily8 op).Rejects op ↔ op.toNat % 16 ∈ [0x8, 0x9, 0xA, 0xB, 0xC, 0xD, 0xF] := by
  have hlt : op.toNat % 16 < 16 := Nat.mod_lt _ (by decide)
  unfold decodeFamily8
  rw [fieldN_toNat]
  interval_cases op.toNat % 16 <;> simp

/-- The illegal words of family E (R80). -/
theorem decodeFamilyE_rejects_iff : (decodeFamilyE op).Rejects op ↔ op.toNat % 256 ∉ [0x9E, 0xA1] := by
  have field_eq : ∀ b : Byte, fieldNN op = b ↔ op.toNat % 256 = b.toNat := fun b => by
    rw [← fieldNN_toNat, BitVec.toNat_inj]
  unfold decodeFamilyE
  simp only [field_eq]
  split_ifs <;> simp_all

/-- The illegal words of family F (R80). -/
theorem decodeFamilyF_rejects_iff :
    (decodeFamilyF op).Rejects op ↔ op.toNat % 256 ∉ [0x07, 0x0A, 0x15, 0x18, 0x1E, 0x29, 0x33, 0x55, 0x65] := by
  have field_eq : ∀ b : Byte, fieldNN op = b ↔ op.toNat % 256 = b.toNat := fun b => by
    rw [← fieldNN_toNat, BitVec.toNat_inj]
  unfold decodeFamilyF
  simp only [field_eq]
  split_ifs <;> simp_all

/-- The illegal words of families 5 and 9 (R80). -/
theorem registerPair_rejects_iff {j : Instr} (hj : ∀ nnn, j ≠ .sys nnn) :
    (if fieldN op = 0#4 then Decoded.instr j else .illegal op).Rejects op ↔ op.toNat % 16 ≠ 0 := by
  have hn : fieldN op = 0#4 ↔ op.toNat % 16 = 0 := by rw [← fieldN_toNat, ← BitVec.toNat_inj]; rfl
  simp only [hn]
  split_ifs <;> simp_all

end

/-- Settles O3: family by family; the families without a table of their own reject nothing. -/
theorem illegalSpaceIsExact : Obligations.IllegalSpaceIsExact := by
  intro op
  change (decodeWord op).Rejects op ↔ _
  have hlt : op.toNat / 4096 < 16 := by have := op.isLt; omega
  unfold decodeWord
  rw [fieldFamily_eq]
  generalize hfamily : op.toNat / 4096 = family at hlt ⊢
  interval_cases family
  all_goals simp [decodeFamily0_rejects_iff, registerPair_rejects_iff, decodeFamily8_rejects_iff,
    decodeFamilyE_rejects_iff, decodeFamilyF_rejects_iff]

/-- Settles O4: six closed words, each read by the decoder. -/
theorem writtenOutWordsDecode : Obligations.WrittenOutWordsDecode := by
  unfold Obligations.WrittenOutWordsDecode
  decide

end Sys2Proof
end

section
/-! What an instruction can do, over all instructions at once: it completes; it raises its own fault and does
nothing else, or leaves the fault status; which instructions write the stack, memory and the timers. -/

namespace Sys2Proof.Machine

/-! ## Frames by computation -/

/-- `s` with pc, the registers and the listed pieces of `t`: where `t` keeps every other piece, that is `t`. -/
def mergeBut (changed : List Piece) (s t : State) : State :=
  { v := t.v
    pc := t.pc
    draws := t.draws
    mem := if .memory ∈ changed then t.mem else s.mem
    i := if .index ∈ changed then t.i else s.i
    stack := if .stack ∈ changed then t.stack else s.stack
    dt := if .delay ∈ changed then t.dt else s.dt
    st := if .sound ∈ changed then t.st else s.st
    fb := if .screen ∈ changed then t.fb else s.fb
    redraw := if .redraw ∈ changed then t.redraw else s.redraw
    key := if .keys ∈ changed then t.key else s.key
    waiting := if .wait ∈ changed then t.waiting else s.waiting
    waitReg := if .wait ∈ changed then t.waitReg else s.waitReg
    fault := if .fault ∈ changed then t.fault else s.fault }

/-- The frame of an update that writes only pc, registers and listed pieces; for a concrete update the premise is
true by computation. -/
theorem keepsBut_of_eq_mergeBut {changed : List Piece} {s t : State} (h : t = mergeBut changed s t) :
    KeepsBut changed s t := by
  intro p hp
  have field : ∀ {α : Type} (f : State → α), f (mergeBut changed s t) = f s → f t = f s := fun f hf =>
    (congrArg f h).trans hf
  cases p
  case memory => exact fun a => congrArg (Memory.read · a) (field State.mem (if_neg hp))
  case index => exact field State.i (if_neg hp)
  case stack => exact field State.stack (if_neg hp)
  case delay => exact field State.dt (if_neg hp)
  case sound => exact field State.st (if_neg hp)
  case screen => exact field State.fb (if_neg hp)
  case redraw => exact field State.redraw (if_neg hp)
  case keys => exact field State.key (if_neg hp)
  case wait => exact ⟨field State.waiting (if_neg hp), field State.waitReg (if_neg hp)⟩
  case fault => exact field State.fault (if_neg hp)

/-! ## The instructions that can fault, case by case -/

section
variable (nnn : Addr) (s : State)

/-- SYS raises IllegalInstruction (R107, R190). -/
theorem exec_sys : exec (.sys nnn) s =
    .next (s.raise .illegalInstruction (some (encode (.sys nnn))) (some (encode (.sys nnn)).toNat)) := rfl

variable {s}

/-- RET pops the top of the stack into pc (R106). -/
theorem exec_ret_pop {rest : List Word} {top : Word} (h : s.stack = rest ++ [top]) :
    exec .ret s = .next { s.jump top with stack := rest } := by
  change execRet s = _
  rw [execRet, h, popStack_append]

/-- RET on an empty stack raises StackUnderflow (R106). -/
theorem exec_ret_empty (h : s.stack = []) :
    exec .ret s = .next (s.raise .stackUnderflow (some (encode .ret)) none) := by
  change execRet s = _
  rw [execRet, h, popStack_nil]

/-- CALL with room on the stack pushes the advanced pc and jumps (R109). -/
theorem exec_call_room (h : s.stack.length < stackDepth) :
    exec (.call nnn) s = .next { s.jump (addrWord nnn) with stack := s.stack ++ [s.pc + 2#16] } := by
  change execCall nnn s = _
  rw [execCall, pushStack_room h, State.advance_pc]

/-- CALL on a full stack raises StackOverflow (R109). -/
theorem exec_call_full (h : stackDepth ≤ s.stack.length) :
    exec (.call nnn) s = .next (s.raise .stackOverflow (some (encode (.call nnn))) none) := by
  change execCall nnn s = _
  rw [execCall, pushStack_full h]

/-- Everything RET can do. -/
theorem exec_ret_cases {t : State} (h : exec .ret s = .next t) :
    (∃ rest top, s.stack = rest ++ [top] ∧ t = { s.jump top with stack := rest }) ∨
    t = s.raise .stackUnderflow (some (encode .ret)) none := by
  rcases List.eq_nil_or_concat' s.stack with hs | ⟨rest, top, hs⟩
  · rw [exec_ret_empty hs] at h
    exact .inr (Host.Outcome.next.inj h).symm
  · rw [exec_ret_pop hs] at h
    exact .inl ⟨rest, top, hs, (Host.Outcome.next.inj h).symm⟩

/-- Everything CALL can do. -/
theorem exec_call_cases {nnn : Addr} {t : State} (h : exec (.call nnn) s = .next t) :
    (s.stack.length < stackDepth ∧ t = { s.jump (addrWord nnn) with stack := s.stack ++ [s.pc + 2#16] }) ∨
    t = s.raise .stackOverflow (some (encode (.call nnn))) none := by
  rcases Nat.lt_or_ge s.stack.length stackDepth with hs | hs
  · rw [exec_call_room nnn hs] at h
    exact .inl ⟨hs, (Host.Outcome.next.inj h).symm⟩
  · rw [exec_call_full nnn hs] at h
    exact .inr (Host.Outcome.next.inj h).symm

end

/-- RET's two cases are decided by the stack alone. -/
theorem exec_ret_of_same_stack {s u : State} (h : u.stack = s.stack) :
    (∃ rest top, exec .ret s = .next { s.jump top with stack := rest } ∧
      exec .ret u = .next { u.jump top with stack := rest }) ∨
    (exec .ret s = .next (s.raise .stackUnderflow (some (encode .ret)) none) ∧
      exec .ret u = .next (u.raise .stackUnderflow (some (encode .ret)) none)) := by
  rcases List.eq_nil_or_concat' s.stack with hs | ⟨rest, top, hs⟩
  · exact .inr ⟨exec_ret_empty hs, exec_ret_empty (h.trans hs)⟩
  · exact .inl ⟨rest, top, exec_ret_pop hs, exec_ret_pop (h.trans hs)⟩

/-- CALL's two cases are decided by the stack alone. -/
theorem exec_call_of_same_stack (nnn : Addr) {s u : State} (h : u.stack = s.stack) :
    (exec (.call nnn) s = .next { s.jump (addrWord nnn) with stack := s.stack ++ [s.pc + 2#16] } ∧
      exec (.call nnn) u = .next { u.jump (addrWord nnn) with stack := u.stack ++ [u.pc + 2#16] }) ∨
    (exec (.call nnn) s = .next (s.raise .stackOverflow (some (encode (.call nnn))) none) ∧
      exec (.call nnn) u = .next (u.raise .stackOverflow (some (encode (.call nnn))) none)) := by
  rcases Nat.lt_or_ge s.stack.length stackDepth with hs | hs
  · exact .inl ⟨exec_call_room nnn hs, exec_call_room nnn (h ▸ hs)⟩
  · exact .inr ⟨exec_call_full nnn hs, exec_call_full nnn (h ▸ hs)⟩

/-- An instruction whose access set leaves memory raises MemoryOutOfBounds with the lowest address outside it
(R54). -/
theorem exec_access_outside {i : Instr} {s : State} (hn : accessCount i ≠ 0) (h : memSize < s.i.toNat + accessCount i) :
    exec i s = .next (s.raise .memoryOutOfBounds (some (encode i)) (some (max s.i.toNat memSize))) := by
  cases i
  case drw | ldBVx | ldMemVx | ldVxMem => exact congrArg Host.Outcome.next (State.checked_outside ⟨hn, h⟩)
  all_goals exact absurd rfl hn

/-- A checked access keeps or raises: it has the fault status of its effect, or it is one raise. -/
theorem State.checked_fault_cases (s : State) (op : Word) (a n : Nat) (k : State) :
    (s.checked op a n k).fault = k.fault ∨
      ∃ info, s.checked op a n k = s.raise .memoryOutOfBounds (some op) info := by
  rcases s.checked_cases op a n k with ⟨-, h⟩ | ⟨-, h⟩
  · exact .inl (congrArg State.fault h)
  · exact .inr ⟨_, h⟩

/-- A key skip on a register that names a key is a skip (R120, R121). -/
theorem skipOnKey_named {op : Word} {x : Reg} {wanted : Bool} {s : State} (h : (s.readV x).toNat ≤ 15) :
    skipOnKey op x wanted s = s.advanceSkip (s.keyDown (s.readV x).toNat == wanted) := if_neg (Nat.not_lt.2 h)

/-- A key skip on a register that names no key is one raise (R120, R121). -/
theorem skipOnKey_unnamed {op : Word} {x : Reg} {wanted : Bool} {s : State} (h : 15 < (s.readV x).toNat) :
    skipOnKey op x wanted s = s.raise .keyIndexOutOfRange (some op) (some (s.readV x).toNat) := if_pos h

/-- A key skip keeps the fault status or is one raise (R120, R121). -/
theorem skipOnKey_fault_cases (op : Word) (x : Reg) (wanted : Bool) (s : State) :
    (skipOnKey op x wanted s).fault = s.fault ∨
      ∃ info, skipOnKey op x wanted s = s.raise .keyIndexOutOfRange (some op) info := by
  rcases skipOnKey_cases op x wanted s with ⟨-, h⟩ | ⟨-, h⟩
  · exact .inl (by rw [h, State.advanceSkip_fault])
  · exact .inr ⟨_, h⟩

/-! ## Every instruction -/

section
variable {i : Instr} {s t : State}

/-- Every instruction answers a next state (log 1). -/
theorem exec_total (i : Instr) (s : State) : ∃ t, exec i s = .next t := by
  cases i
  case ret =>
    rcases List.eq_nil_or_concat' s.stack with hs | ⟨rest, top, hs⟩
    · exact ⟨_, exec_ret_empty hs⟩
    · exact ⟨_, exec_ret_pop hs⟩
  case call nnn =>
    rcases Nat.lt_or_ge s.stack.length stackDepth with hs | hs
    · exact ⟨_, exec_call_room nnn hs⟩
    · exact ⟨_, exec_call_full nnn hs⟩
  all_goals exact ⟨_, rfl⟩

/-- An instruction leaves the fault status, or it raises its own kind of fault with its own word and does nothing
else (R179, R180). -/
theorem exec_fault_cases (h : exec i s = .next t) :
    t.fault = s.fault ∨ ∃ kind info, faultKindOf i = some kind ∧ t = s.raise kind (some (encode i)) info := by
  cases i
  case sys => cases h; exact .inr ⟨_, _, rfl, rfl⟩
  case ret =>
    obtain ⟨rest, top, -, rfl⟩ | rfl := exec_ret_cases h
    · exact .inl rfl
    · exact .inr ⟨_, _, rfl, rfl⟩
  case call nnn =>
    obtain ⟨-, rfl⟩ | rfl := exec_call_cases h
    · exact .inl rfl
    · exact .inr ⟨_, _, rfl, rfl⟩
  case skp | sknp =>
    cases h
    exact (skipOnKey_fault_cases _ _ _ s).imp id fun ⟨info, h⟩ => ⟨_, info, rfl, h⟩
  case drw | ldBVx | ldMemVx | ldVxMem =>
    cases h
    exact (State.checked_fault_cases s _ _ _ _).imp id fun ⟨info, h⟩ => ⟨_, info, rfl, h⟩
  case seImm | sneImm | seReg | sneReg => cases h; exact .inl (State.advanceSkip_fault s _)
  all_goals cases h; exact .inl rfl

/-- An instruction that leaves no fault has written no piece but its own. -/
theorem keepsBut_writtenPieces_of_no_fault (h : exec i s = .next t) (ht : t.fault = none) :
    KeepsBut (writtenPieces i) s t := by
  obtain hkeeps | ⟨kind, op, info, rfl⟩ := exec_frame h
  · exact hkeeps
  · cases ht

/-- No instruction writes the key flags (R33). -/
theorem keys_not_mem_writtenPieces (i : Instr) : .keys ∉ writtenPieces i := by
  cases i <;> simp [writtenPieces]

/-- RET and CALL are the only instructions whose rule writes the stack (R112). -/
theorem stack_of_mem_writtenPieces (h : .stack ∈ writtenPieces i) : i = .ret ∨ ∃ nnn, i = .call nnn := by
  cases i
  case ret => exact .inl rfl
  case call nnn => exact .inr ⟨nnn, rfl⟩
  all_goals simp [writtenPieces] at h

/-- FX33 and FX55 are the only instructions whose rule writes memory (R52). -/
theorem memory_of_mem_writtenPieces (h : .memory ∈ writtenPieces i) :
    (∃ x, i = .ldBVx x) ∨ ∃ x, i = .ldMemVx x := by
  cases i
  case ldBVx x => exact .inl ⟨x, rfl⟩
  case ldMemVx x => exact .inr ⟨x, rfl⟩
  all_goals simp [writtenPieces] at h

/-- FX15 is the only instruction whose rule writes DT (R167). -/
theorem delay_of_mem_writtenPieces (h : .delay ∈ writtenPieces i) : ∃ x, i = .ldDTVx x := by
  cases i
  case ldDTVx x => exact ⟨x, rfl⟩
  all_goals simp [writtenPieces] at h

/-- FX18 is the only instruction whose rule writes ST (R168). -/
theorem sound_of_mem_writtenPieces (h : .sound ∈ writtenPieces i) : ∃ x, i = .ldSTVx x := by
  cases i
  case ldSTVx x => exact ⟨x, rfl⟩
  all_goals simp [writtenPieces] at h

end

/-- Settles O13: a state without a fault that ends with one met the raise of the instruction's own kind. -/
theorem eachInstructionRaisesOnlyItsOwnFault : Obligations.EachInstructionRaisesOnlyItsOwnFault := by
  intro i s t f hs h ht
  obtain hkept | ⟨kind, info, hkind, rfl⟩ := exec_fault_cases h
  · rw [hkept, hs] at ht
    cases ht
  · cases ht
    exact hkind

/-- Settles O15: the checked access of each of the four instructions raises before its effect. -/
theorem memoryAccessIsCheckedBeforeAnyEffect : Obligations.MemoryAccessIsCheckedBeforeAnyEffect :=
  fun _ _ hn h => ⟨_, exec_access_outside hn h, rfl⟩

end Sys2Proof.Machine
end

section
/-! What a step can do (spec/40_cycle.md, spec/60_exceptions.md): it always answers, its faults are precise, a
faulted machine stays as it is. -/

namespace Sys2Proof.Machine

/-! ## The end of a cycle and illegal words -/

@[simp] theorem endCycle_mem (t : State) : (endCycle t).mem = t.mem := by unfold endCycle; split <;> rfl
@[simp] theorem endCycle_pc (t : State) : (endCycle t).pc = t.pc := by unfold endCycle; split <;> rfl
@[simp] theorem endCycle_stack (t : State) : (endCycle t).stack = t.stack := by unfold endCycle; split <;> rfl

/-- The decay as one update of the two timers (R96). -/
theorem decayTimers_eq (s : State) :
    decayTimers s = { s with dt := BitVec.ofNat 8 (s.dt.toNat - 1), st := BitVec.ofNat 8 (s.st.toNat - 1) } := by
  rw [decayTimers, decayTimer_eq, decayTimer_eq]

/-- Under the machine's own configuration the cycle of an illegal word is one raise (R190, R180). -/
theorem illegalCycle_activeConfig (op : Word) (s : State) :
    illegalCycle activeConfig op s = s.raise .illegalInstruction (some op) (some op.toNat) := rfl

/-! ## The step -/

/-- A step answers from every mode of the machine. -/
theorem step_total (s : State) : ∃ t, step s = .next t := by
  rcases hfault : s.fault with _ | f
  · rcases hwaiting : s.waiting
    · rw [step_running hfault hwaiting]
      by_cases hpc : s.pc.toNat + 2 ≤ memSize
      · rcases decodeWord_cases (fetchedWord s) with ⟨i, hd⟩ | hd
        · obtain ⟨u, hu⟩ := exec_total i s
          exact ⟨endCycle u, by rw [runCycle_instr hpc hd, hu, finishCycle]⟩
        · exact ⟨_, runCycle_illegal hpc hd⟩
      · exact ⟨_, runCycle_outside (by omega)⟩
    · exact ⟨_, step_blocked hfault hwaiting⟩
  · exact ⟨_, step_faulted hfault⟩

/-- Settles O10. -/
theorem stepAnswersFromEveryState : Obligations.StepAnswersFromEveryState := step_total

section
variable {s t : State}

/-- The step of a state that runs an instruction is that instruction's answer, ended. -/
theorem exists_exec_of_step {i : Instr} (hruns : s.Runs i) (h : step s = .next t) :
    ∃ u, exec i s = .next u ∧ t = endCycle u := by
  rw [step_of_runs hruns] at h
  exact finishCycle_eq_next h

/-- The fetched word of a running state decodes to the illegal word `op` only if it is `op`. -/
theorem eq_fetchedWord_of_illegal {op : Word}
    (h : decode [s.mem.read s.pc.toNat, s.mem.read (s.pc.toNat + 1)] = .illegal op) : op = fetchedWord s := by
  change decodeWord (fetchedWord s) = .illegal op at h
  rcases decodeWord_cases (fetchedWord s) with ⟨i, hd⟩ | hd
  · rw [hd] at h; cases h
  · rw [hd] at h; cases h; rfl

/-- Everything a fault-free cycle can be: a blocked cycle, or an instruction and the decay. -/
theorem step_fault_free_cases (hs : s.fault = none) (h : step s = .next t) (ht : t.fault = none) :
    (s.waiting = true ∧ t = blockedCycle s) ∨
      ∃ i u, s.Runs i ∧ exec i s = .next u ∧ u.fault = none ∧ t = decayTimers u := by
  rcases step_cases h with ⟨f, hf, -⟩ | ⟨-, hw, rfl⟩ | ⟨-, -, -, rfl⟩ | ⟨-, -, -, -, rfl⟩ |
    ⟨-, hw, hpc, i, u, hd, hu, rfl⟩
  · rw [hs] at hf; cases hf
  · exact .inl ⟨hw, rfl⟩
  · cases ht
  · cases ht
  · rw [endCycle_fault_field] at ht
    exact .inr ⟨i, u, State.runs_iff.2 ⟨hs, hw, hpc, hd⟩, hu, ht, endCycle_ok ht⟩

/-- Everything a step of a running state that ends with a record can have done: the raise of a fetch outside
memory, or the raise of the fetched word, and nothing else (R180). -/
theorem step_raises_cases {f : FaultRecord} (hs : s.Running) (h : step s = .next t) (ht : t.fault = some f) :
    (memSize < s.pc.toNat + 2 ∧ ∃ kind info, t = s.raise kind none info) ∨
    (s.pc.toNat + 2 ≤ memSize ∧ ∃ kind info, t = s.raise kind (some (fetchedWord s)) info) := by
  obtain ⟨hfault, hwaiting⟩ := hs
  rcases step_cases h with ⟨g, hg, -⟩ | ⟨-, hw, -⟩ | ⟨-, -, hpc, rfl⟩ | ⟨-, -, hpc, -, rfl⟩ |
    ⟨-, -, hpc, i, u, hd, hu, rfl⟩
  · rw [hfault] at hg; cases hg
  · rw [hwaiting] at hw; cases hw
  · exact .inl ⟨hpc, _, _, rfl⟩
  · exact .inr ⟨hpc, _, _, illegalCycle_activeConfig _ s⟩
  · rw [endCycle_fault_field] at ht
    rw [endCycle_fault ht]
    obtain hkept | ⟨kind, info, -, rfl⟩ := exec_fault_cases hu
    · rw [hkept, hfault] at ht; cases ht
    · rw [(encode_of_decodeWord hd).1]
      exact .inr ⟨hpc, kind, info, rfl⟩

end

/-- Settles O12: every way of faulting is one raise from the state before, whose word is missing exactly where the
fetch left memory. -/
theorem faultsArePrecise : Obligations.FaultsArePrecise := by
  intro s t f hs h ht
  rcases step_raises_cases hs h ht with ⟨hpc, kind, info, rfl⟩ | ⟨hpc, kind, info, rfl⟩
  · cases ht
    exact ⟨rfl, rfl, rfl, fun hin => by omega, fun _ => rfl⟩
  · cases ht
    exact ⟨rfl, rfl, rfl, fun _ => rfl, fun hout => by omega⟩

/-- Settles O6: the end of the cycle after the instruction's meaning, decay or not by its fault status. -/
theorem stepRunsTheDecodedInstruction : Obligations.StepRunsTheDecodedInstruction := by
  intro s t i hruns h
  refine ⟨fun ht => ?ok, fun ht => ?fault⟩
  case ok => rw [step_of_runs_ok hruns h ht, decayTimers_eq]
  case fault =>
    obtain ⟨f, hf⟩ := Option.ne_none_iff_exists'.1 ht
    rw [step_of_runs hruns, h, finishCycle, endCycle_fault hf]

/-- Settles O8: a fetched illegal word is itself and its cycle is one raise, as is SYS; under the policy Nop both are
the default advance. -/
theorem illegalWordsFollowThePolicy : Obligations.IllegalWordsFollowThePolicy := by
  refine ⟨fun s op hs hpc hd => ?fetched, fun nnn s => ⟨_, exec_sys nnn s, rfl⟩, fun c nnn op s hc hs => ?nop⟩
  case fetched =>
    obtain ⟨hfault, hwaiting⟩ := hs
    obtain rfl := eq_fetchedWord_of_illegal hd
    exact ⟨rfl, _, (step_running hfault hwaiting).trans (runCycle_illegal hpc hd), rfl⟩
  case nop =>
    have hnop : ∀ w, illegalWord c w s = s.advance := fun w => by rw [illegalWord, hc]
    constructor
    · rw [execSysUnder, hnop, State.advance]
    · rw [illegalCycle, hnop, endCycle_ok (t := s.advance) hs, decayTimers_eq]
      rfl

/-! ## Who changes what -/

/-- Settles O20: the key flags are in no instruction's write set. -/
theorem coreNeverWritesAKeyFlag : Obligations.CoreNeverWritesAKeyFlag := by
  intro s t h
  obtain hkept | ⟨i, -, hmem⟩ := step_frame h .keys (by decide) (by decide) (by decide) (by decide)
  · exact hkept
  · exact absurd hmem (keys_not_mem_writtenPieces i)

/-- Settles O21: the stack is in the write sets of RET and CALL alone. -/
theorem onlyCallAndReturnChangeTheStack : Obligations.OnlyCallAndReturnChangeTheStack := by
  intro s t h hchanged
  obtain hkept | ⟨i, hruns, hmem⟩ := step_frame h .stack (by decide) (by decide) (by decide) (by decide)
  · exact absurd hkept hchanged
  · obtain rfl | ⟨nnn, rfl⟩ := stack_of_mem_writtenPieces hmem
    · exact .inl hruns
    · exact .inr ⟨nnn, hruns⟩

section
variable {i : Instr} {s t : State}

/-- A checked access whose effect leaves memory alone leaves memory alone. -/
theorem State.checked_mem_eq {op : Word} {a n : Nat} {k : State} (hk : k.mem = s.mem) :
    (s.checked op a n k).mem = s.mem := by
  rcases s.checked_cases op a n k with ⟨-, h⟩ | ⟨-, h⟩
  · rw [h, hk]
  · rw [h, State.raise_mem]

/-- A checked access whose effect writes its access set writes it inside memory, or leaves memory alone. -/
theorem State.checked_mem_cases {op : Word} {a n : Nat} {k : State} {bs : List Byte} (hn : n ≠ 0) (hbs : bs.length = n)
    (hk : k.mem = s.mem.writeBytes a bs) :
    (s.checked op a n k).mem = s.mem ∨
      (a + bs.length ≤ memSize ∧ (s.checked op a n k).mem = s.mem.writeBytes a bs) := by
  rcases s.checked_cases op a n k with ⟨hin, h⟩ | ⟨-, h⟩
  · exact .inr ⟨by omega, by rw [h, hk]⟩
  · exact .inl (by rw [h, State.raise_mem])

/-- An instruction leaves memory alone, or it writes exactly its access set from I on, inside memory (R52, R54). -/
theorem exec_mem_cases (h : exec i s = .next t) :
    t.mem = s.mem ∨ ∃ bs : List Byte, bs.length = accessCount i ∧ s.i.toNat + bs.length ≤ memSize ∧
      t.mem = s.mem.writeBytes s.i.toNat bs := by
  cases i
  case ldBVx x =>
    cases h
    have hlen : (decimalDigits (s.readV x)).length = 3 := rfl
    exact (State.checked_mem_cases (Nat.succ_ne_zero 2) hlen rfl).imp id fun ⟨hin, hmem⟩ => ⟨_, hlen, hin, hmem⟩
  case ldMemVx x =>
    cases h
    have hlen := s.length_readVUpTo x
    exact (State.checked_mem_cases (Nat.succ_ne_zero _) hlen rfl).imp id fun ⟨hin, hmem⟩ => ⟨_, hlen, hin, hmem⟩
  case ret => obtain ⟨_, _, -, rfl⟩ | rfl := exec_ret_cases h <;> exact .inl rfl
  case call => obtain ⟨-, rfl⟩ | rfl := exec_call_cases h <;> exact .inl rfl
  case skp x | sknp x =>
    cases h
    left
    rcases skipOnKey_cases (encode _) x _ s with ⟨-, h⟩ | ⟨-, h⟩
    · rw [h, State.advanceSkip_mem]
    · rw [h, State.raise_mem]
  case drw | ldVxMem => cases h; exact .inl (State.checked_mem_eq rfl)
  case seImm | sneImm | seReg | sneReg => cases h; exact .inl (State.advanceSkip_mem s _)
  all_goals cases h; exact .inl rfl

/-- An instruction keeps every byte outside its access set (R52). -/
theorem exec_keepsBytesBut (hs : s.mem.wf = true) (h : exec i s = .next t) :
    KeepsBytesBut s.i.toNat (accessCount i) s t := by
  obtain hmem | ⟨bs, hlen, hin, hmem⟩ := exec_mem_cases h
  · exact fun b _ => by rw [hmem]
  · rw [← hlen]
    exact keepsBytesBut_writeBytes hs hin hmem

/-- A byte that a step changed lies in the access set of the instruction it ran (R52). -/
theorem mem_accessSet_of_step_changes {a : Nat} (hs : s.mem.wf = true) (hruns : s.Runs i) (h : step s = .next t)
    (hchanged : t.mem.read a ≠ s.mem.read a) : s.i.toNat ≤ a ∧ a < s.i.toNat + accessCount i := by
  obtain ⟨u, hu, rfl⟩ := exists_exec_of_step hruns h
  by_contra hout
  rw [endCycle_mem] at hchanged
  exact hchanged (exec_keepsBytesBut hs hu a hout)

end

/-- Settles O22: memory is in the write sets of FX33 and FX55 alone, and they keep what is outside their access
sets. -/
theorem onlyStoresChangeMemory : Obligations.OnlyStoresChangeMemory := by
  intro s t a hs h hchanged
  obtain hkept | ⟨i, hruns, hmem⟩ := step_frame h .memory (by decide) (by decide) (by decide) (by decide)
  · exact absurd (hkept a) hchanged
  · obtain ⟨x, rfl⟩ | ⟨x, rfl⟩ := memory_of_mem_writtenPieces hmem
    · exact .inl ⟨x, hruns, mem_accessSet_of_step_changes hs hruns h hchanged⟩
    · exact .inr ⟨x, hruns, mem_accessSet_of_step_changes hs hruns h hchanged⟩

/-! ## The faulted machine -/

/-- Quiescence (R181): what a faulted machine keeps until a load. -/
def KeepsFaulted (s t : State) : Prop :=
  t.fault = s.fault ∧ t.pc = s.pc ∧ KeepsRegsBut [] s t ∧ KeepsBut [.keys, .redraw] s t

/-- Quiescence composes. -/
theorem KeepsFaulted.trans {s t u : State} (h : KeepsFaulted s t) (h' : KeepsFaulted t u) : KeepsFaulted s u := by
  obtain ⟨hfault, hpc, hregs, hpieces⟩ := h
  obtain ⟨hfault', hpc', hregs', hpieces'⟩ := h'
  exact ⟨hfault'.trans hfault, hpc'.trans hpc, hregs.trans hregs', hpieces.trans hpieces'⟩

/-- Every state keeps itself. -/
theorem KeepsFaulted.refl (s : State) : KeepsFaulted s s :=
  ⟨rfl, rfl, fun _ _ => rfl, KeepsBut.refl _ s⟩

/-- One host action other than load, or one cycle, keeps a faulted machine (R181, R182). -/
theorem hostMove_faulted {a : HostAction} {s : State} (hs : s.Faulted) (ha : a.isLoad = false) :
    ∃ t, hostMove a s = .next t ∧ KeepsFaulted s t := by
  have hkeeps : ∀ keys redraw, KeepsFaulted s { s with key := keys, redraw := redraw } := fun keys redraw =>
    ⟨rfl, rfl, fun _ _ => rfl, keepsBut_of_eq_mergeBut rfl⟩
  cases a with
  | load source => cases ha
  | setKey k down => exact ⟨_, rfl, hkeeps (s.key.set k down) s.redraw⟩
  | setKeys keys => exact ⟨_, rfl, hkeeps keys s.redraw⟩
  | clearRedraw => exact ⟨_, rfl, hkeeps s.key false⟩
  | cycle =>
    obtain ⟨f, hf⟩ := Option.ne_none_iff_exists'.1 hs
    exact ⟨s, step_faulted hf, KeepsFaulted.refl s⟩

/-- A run of the host's actions goes on after one that answers. -/
theorem hostRun_cons {a : HostAction} {rest : List HostAction} {s t : State} (h : hostMove a s = .next t) :
    hostRun (a :: rest) s = hostRun rest t := by
  rw [hostRun, h]

/-- Settles O14: each action keeps the machine faulted as it was, and the frames compose along the list. -/
theorem onlyLoadLeavesAFault : Obligations.OnlyLoadLeavesAFault := by
  intro actions s hs hload
  change ∃ t, hostRun actions s = .next t ∧ KeepsFaulted s t
  induction actions generalizing s with
  | nil => exact ⟨s, rfl, KeepsFaulted.refl s⟩
  | cons a rest ih =>
    obtain ⟨t, hmove, hkeeps⟩ := hostMove_faulted hs (hload a List.mem_cons_self)
    have ht : t.Faulted := by rw [State.Faulted, hkeeps.1]; exact hs
    obtain ⟨u, hrun, hkeeps'⟩ := ih t ht fun b hb => hload b (List.mem_cons_of_mem a hb)
    exact ⟨u, (hostRun_cons hmove).trans hrun, hkeeps.trans hkeeps'⟩

end Sys2Proof.Machine
end

section
/-! The invariant of the reachable states (spec/10_state.md sections 2 and 3). -/

namespace Sys2Proof.Machine

/-! ## pc and the stack after an instruction -/

/-- The target of BNNN does not wrap: 0xFFF + 0xFF is below 65536 (R113). -/
theorem toNat_offsetTarget (nnn : Addr) (s : State) :
    (offsetTarget nnn s).toNat = nnn.toNat + (s.readV regV0).toNat := by
  have := nnn.isLt
  have := (s.readV regV0).isLt
  rw [offsetTarget, BitVec.toNat_ofNat, Nat.mod_eq_of_lt (by omega)]

/-- A checked access leaves pc or has its effect's. -/
theorem State.checked_pc_cases (s : State) (op : Word) (a n : Nat) (k : State) :
    (s.checked op a n k).pc = s.pc ∨ (s.checked op a n k).pc = k.pc := by
  rcases s.checked_cases op a n k with ⟨-, h⟩ | ⟨-, h⟩
  · exact .inr (by rw [h])
  · exact .inl (by rw [h, State.raise_pc])

/-- A skip moves pc by one or two words (R115). -/
theorem State.advanceSkip_pc_cases (s : State) (taken : Bool) :
    (s.advanceSkip taken).pc = s.pc + 2#16 ∨ (s.advanceSkip taken).pc = s.pc + 4#16 := by
  cases taken
  · exact .inl rfl
  · exact .inr rfl

section
variable {i : Instr} {s t : State}

/-- Everything pc can be after an instruction: as before (a fault), one or two words on, a return address from the
stack, the target of a jump or of a jump with offset (R93). -/
theorem exec_pc_cases (h : exec i s = .next t) :
    t.pc = s.pc ∨ (t.pc = s.pc + 2#16 ∨ t.pc = s.pc + 4#16) ∨ t.pc ∈ s.stack ∨
      (∃ nnn, t.pc = addrWord nnn) ∨ ∃ nnn, t.pc = offsetTarget nnn s := by
  cases i
  case sys => cases h; exact .inl rfl
  case ret =>
    obtain ⟨rest, top, hs, rfl⟩ | rfl := exec_ret_cases h
    · exact .inr (.inr (.inl (hs ▸ List.mem_concat_self)))
    · exact .inl rfl
  case jp nnn => cases h; exact .inr (.inr (.inr (.inl ⟨nnn, rfl⟩)))
  case call nnn =>
    obtain ⟨-, rfl⟩ | rfl := exec_call_cases h
    · exact .inr (.inr (.inr (.inl ⟨nnn, rfl⟩)))
    · exact .inl rfl
  case jpV0 nnn => cases h; exact .inr (.inr (.inr (.inr ⟨nnn, rfl⟩)))
  case seImm | sneImm | seReg | sneReg => cases h; exact .inr (.inl (s.advanceSkip_pc_cases _))
  case skp | sknp =>
    cases h
    rcases skipOnKey_cases (encode _) _ _ s with ⟨-, h⟩ | ⟨-, h⟩
    · rw [h]; exact .inr (.inl (s.advanceSkip_pc_cases _))
    · rw [h]; exact .inl rfl
  case drw | ldBVx | ldMemVx | ldVxMem =>
    cases h
    exact (s.checked_pc_cases _ _ _ _).imp id fun h => .inl (.inl h)
  all_goals cases h; exact .inr (.inl (.inl rfl))

/-- Everything the stack can be after an instruction: as before, popped once, or pushed with the address after the
instruction where there was room (R26). -/
theorem exec_stack_cases (h : exec i s = .next t) :
    t.stack = s.stack ∨ (∃ top, s.stack = t.stack ++ [top]) ∨
      (s.stack.length < stackDepth ∧ t.stack = s.stack ++ [s.pc + 2#16]) := by
  obtain hkeeps | ⟨kind, op, info, rfl⟩ := exec_frame h
  · by_cases hmem : Piece.stack ∈ writtenPieces i
    · obtain rfl | ⟨nnn, rfl⟩ := stack_of_mem_writtenPieces hmem
      · obtain ⟨rest, top, hs, rfl⟩ | rfl := exec_ret_cases h
        · exact .inr (.inl ⟨top, hs⟩)
        · exact .inl rfl
      · obtain ⟨hroom, rfl⟩ | rfl := exec_call_cases h
        · exact .inr (.inr ⟨hroom, rfl⟩)
        · exact .inl rfl
    · exact .inl (hkeeps .stack hmem)
  · exact .inl rfl

/-! ## The invariant, operation by operation -/

/-- The invariant speaks of memory, stack, pc and fault status alone. -/
theorem State.Inv.congr (hs : s.Inv) (hmem : t.mem = s.mem) (hstack : t.stack = s.stack) (hpc : t.pc = s.pc)
    (hfault : t.fault = s.fault) : t.Inv where
  memory := hmem ▸ hs.memory
  depth := hstack ▸ hs.depth
  returns := hstack ▸ hs.returns
  pcBound := hpc ▸ hs.pcBound
  record f hf := by
    obtain ⟨hcode, hat, hop⟩ := hs.record f (hfault ▸ hf)
    exact ⟨hcode, hat.trans hpc.symm, hop⟩

/-- A raise keeps the invariant: its record is valid where a missing opcode means a fetch outside memory (R176). -/
theorem State.Inv.raise (hs : s.Inv) {kind : FaultKind} {op : Option Word} {info : Option Nat}
    (hop : op = none → kind = .memoryOutOfBounds) : (s.raise kind op info).Inv where
  memory := hs.memory
  depth := hs.depth
  returns := hs.returns
  pcBound := hs.pcBound
  record f hf := by cases hf; exact ⟨rfl, rfl, hop⟩

/-- The end of a cycle keeps the invariant. -/
theorem State.Inv.endCycle (hs : s.Inv) : (endCycle s).Inv :=
  hs.congr (endCycle_mem s) (endCycle_stack s) (endCycle_pc s) (endCycle_fault_field s)

/-- A blocked cycle keeps the invariant. -/
theorem State.Inv.blockedCycle (hs : s.Inv) : (blockedCycle s).Inv := by
  rcases scanKeys_cases s with ⟨-, h⟩ | ⟨k, -, -, h⟩
  · rw [Machine.blockedCycle, h]; exact hs.congr rfl rfl rfl rfl
  · rw [Machine.blockedCycle, h]; exact hs.congr rfl rfl rfl rfl

/-- An instruction fetched inside memory leaves pc at most 0x10FE: at most two words on, a return address, or at
most 0xFFF + 0xFF (R25). -/
theorem exec_pcBound (hs : s.Inv) (hpc : s.pc.toNat + 2 ≤ memSize) (h : exec i s = .next t) :
    t.pc.toNat ≤ 0x10FE := by
  have hsize : memSize = 4096 := rfl
  rcases exec_pc_cases h with h | (h | h) | h | ⟨nnn, h⟩ | ⟨nnn, h⟩
  · rw [h]; exact hs.pcBound
  · rw [h, BitVec.toNat_add, BitVec.toNat_ofNat]; omega
  · rw [h, BitVec.toNat_add, BitVec.toNat_ofNat]; omega
  · have := hs.returns _ h; omega
  · have := nnn.isLt
    rw [h, toNat_addrWord]; omega
  · have := nnn.isLt
    have := (s.readV regV0).isLt
    rw [h, toNat_offsetTarget]; omega

/-- An instruction fetched inside memory keeps the stack within its depth, its return addresses at most MEM_SIZE
(R25, R26). -/
theorem exec_stackBounds (hs : s.Inv) (hpc : s.pc.toNat + 2 ≤ memSize) (h : exec i s = .next t) :
    t.stack.length ≤ stackDepth ∧ ∀ r ∈ t.stack, r.toNat ≤ memSize := by
  rcases exec_stack_cases h with h | ⟨top, h⟩ | ⟨hroom, h⟩
  · rw [h]; exact ⟨hs.depth, hs.returns⟩
  · have hdepth := hs.depth
    rw [h, List.length_append] at hdepth
    exact ⟨by omega, fun r hr => hs.returns r (h ▸ List.mem_append_left _ hr)⟩
  · have hpush : (s.pc + 2#16).toNat ≤ memSize := by
      have hsize : memSize = 4096 := rfl
      rw [BitVec.toNat_add, BitVec.toNat_ofNat]; omega
    rw [h]
    refine ⟨by rw [List.length_append, List.length_singleton]; omega, fun r hr => ?_⟩
    rcases List.mem_append.1 hr with hr | hr
    · exact hs.returns r hr
    · rw [List.mem_singleton.1 hr]; exact hpush

/-- An instruction keeps memory canonical: what it writes lies inside memory (R54). -/
theorem exec_wf (hs : s.mem.wf = true) (h : exec i s = .next t) : t.mem.wf = true := by
  obtain hmem | ⟨bs, -, hin, hmem⟩ := exec_mem_cases h
  · rw [hmem]; exact hs
  · rw [hmem]; exact Memory.wf_writeBytes hs bs hin

/-- An instruction fetched inside memory keeps the invariant. -/
theorem State.Inv.exec (hs : s.Inv) (hfault : s.fault = none) (hpc : s.pc.toNat + 2 ≤ memSize)
    (h : exec i s = .next t) : t.Inv := by
  obtain hkept | ⟨kind, info, -, rfl⟩ := exec_fault_cases h
  · obtain ⟨hdepth, hreturns⟩ := exec_stackBounds hs hpc h
    refine ⟨exec_wf hs.memory h, hdepth, hreturns, exec_pcBound hs hpc h, fun f hf => ?_⟩
    rw [hkept, hfault] at hf
    cases hf
  · exact hs.raise fun hop => by cases hop

/-- A step keeps the invariant, whichever of its cases it is. -/
theorem State.Inv.step (hs : s.Inv) (h : step s = .next t) : t.Inv := by
  rcases step_cases h with ⟨f, -, rfl⟩ | ⟨-, -, rfl⟩ | ⟨-, -, -, rfl⟩ | ⟨-, -, -, -, rfl⟩ |
    ⟨hf, -, hpc, i, u, -, hu, rfl⟩
  · exact hs
  · exact hs.blockedCycle
  · exact hs.raise fun _ => rfl
  · rw [illegalCycle_activeConfig]; exact hs.raise fun hop => by cases hop
  · exact (hs.exec hf hpc hu).endCycle

/-- The reset state meets the invariant (R36). -/
theorem reset_inv : State.reset.Inv where
  memory := Memory.wf_nil
  depth := Nat.zero_le _
  returns r hr := absurd hr List.not_mem_nil
  pcBound := by decide
  record f hf := by cases hf

/-- A load keeps the invariant: it changes nothing, or it leaves reset with an image inside memory (R201, R203). -/
theorem State.Inv.load (hs : s.Inv) (source : ImageSource) : (load source s).2.Inv := by
  cases source with
  | readFailure => exact hs
  | bytes image =>
    rcases Nat.lt_or_ge maxImage image.length with hlarge | hfits
    · rw [load_tooLarge hlarge]; exact hs
    · rw [load_fits hfits]
      have hin : loadAddr + image.length ≤ memSize := Nat.add_le_of_le_sub' (by decide) hfits
      obtain ⟨-, hdepth, hreturns, hpc, -⟩ := reset_inv
      exact ⟨Memory.wf_writeBytes Memory.wf_nil image hin, hdepth, hreturns, hpc, fun f hf => by cases hf⟩

/-- One host action answers and keeps the invariant. -/
theorem State.Inv.hostMove (hs : s.Inv) (a : HostAction) : ∃ t, hostMove a s = .next t ∧ t.Inv := by
  cases a with
  | load source => exact ⟨_, rfl, hs.load source⟩
  | setKey k down => exact ⟨_, rfl, hs.congr rfl rfl rfl rfl⟩
  | setKeys keys => exact ⟨_, rfl, hs.congr rfl rfl rfl rfl⟩
  | clearRedraw => exact ⟨_, rfl, hs.congr rfl rfl rfl rfl⟩
  | cycle =>
    obtain ⟨t, ht⟩ := step_total s
    exact ⟨t, ht, hs.step ht⟩

end

/-- Settles O16: by the cases of a step. -/
theorem stepKeepsTheInvariant : Obligations.StepKeepsTheInvariant := fun _ _ hs h => hs.step h

/-- Settles O17. -/
theorem resetMeetsTheInvariant : Obligations.ResetMeetsTheInvariant := reset_inv

/-- Settles O18: by induction on the list of actions. -/
theorem hostActionsKeepTheInvariant : Obligations.HostActionsKeepTheInvariant := by
  intro actions
  induction actions with
  | nil => exact fun s hs => ⟨s, rfl, hs⟩
  | cons a rest ih =>
    intro s hs
    obtain ⟨t, hmove, ht⟩ := hs.hostMove a
    obtain ⟨u, hrun, hu⟩ := ih t ht
    exact ⟨u, (hostRun_cons hmove).trans hrun, hu⟩

end Sys2Proof.Machine
end

section
/-! The blocked cycle, the key wait and the timers along cycles (spec/40_cycle.md R92 and R96,
spec/46_timers_keys.md). -/

namespace Sys2Proof.Machine

/-! ## The key scan -/

section
variable {s : State}

/-- The scan with a set key writes the lowest one's number and ends the wait (R92, D12). -/
theorem scanKeys_of_lowest {k : Reg} (hk : s.key[k] = true) (hlow : ∀ j : Reg, j < k → s.key[j] = false) :
    scanKeys s = { s.writeV s.waitReg (BitVec.ofNat 8 k.val) with waiting := false } := by
  have hfind : lowestKeyDown s = some k.val :=
    lowestKeyDown_eq_some ((s.keyDown_eq k).trans hk) fun j hj => (s.keyDown_eq j).trans (hlow j hj)
  rw [scanKeys, hfind]

/-- The scan with no set key does nothing (R92). -/
theorem scanKeys_of_none (h : ∀ k : Reg, s.key[k] = false) : scanKeys s = s := by
  rw [scanKeys, lowestKeyDown_eq_none.2 fun k => (s.keyDown_eq k).trans (h k)]

/-- The scan leaves the timers alone: the decay of the blocked cycle starts from the values before it. -/
theorem scanKeys_timers : (scanKeys s).dt = s.dt ∧ (scanKeys s).st = s.st := by
  rcases scanKeys_cases s with ⟨-, h⟩ | ⟨k, -, -, h⟩
  · rw [h]; exact ⟨rfl, rfl⟩
  · rw [h]; exact ⟨rfl, rfl⟩

end

/-- A register number as a byte. -/
theorem toNat_byte_of_reg (k : Reg) : (BitVec.ofNat 8 k.val).toNat = k.val := by
  have := k.isLt
  rw [BitVec.toNat_ofNat, Nat.mod_eq_of_lt (by omega)]

/-- Settles O9: the step of a blocked state is the scan, then the decay. -/
theorem blockedCycleScansTheKeys : Obligations.BlockedCycleScansTheKeys := by
  intro s ⟨hfault, hwaiting⟩
  rw [step_blocked hfault hwaiting, blockedCycle]
  refine ⟨fun k hk hlow => ?held, fun hnone => ?none⟩
  case held =>
    rw [scanKeys_of_lowest hk hlow]
    refine ⟨_, rfl, ?_, rfl, rfl, toNat_decayTimer s.dt, toNat_decayTimer s.st,
      keepsRegsBut_writeV s s.waitReg _, keepsBut_of_eq_mergeBut rfl⟩
    exact (congrArg BitVec.toNat (s.readV_writeV_self s.waitReg _)).trans (toNat_byte_of_reg k)
  case none => rw [scanKeys_of_none hnone, decayTimers_eq]

/-! ## The key wait -/

/-- LD Vx, K enters the wait (R166). -/
theorem exec_ldVxK (x : Reg) (s : State) :
    exec (.ldVxK x) s = .next { s.advance with waiting := true, waitReg := x } := rfl

/-- Settles O54: the meaning writes the wait condition alone, after the default advance. -/
theorem keyWaitIsEntered : Obligations.KeyWaitIsEntered := fun x s =>
  ⟨_, exec_ldVxK x s, rfl, rfl, rfl, keepsRegsBut_of_eq s.advance_v [],
    keepsBut_writtenPieces_of_advance (exec_ldVxK x s) rfl⟩

/-- Settles O55: the cycle of FX0A leaves a blocked state with the same key flags, whose blocked cycle then finds the
held key. -/
theorem heldKeyEndsTheWaitInTheNextCycle : Obligations.HeldKeyEndsTheWaitInTheNextCycle := by
  intro x k s hruns hk hlow
  obtain ⟨hfault, -⟩ := State.runs_iff.1 hruns
  have hfirst := step_of_runs_ok hruns (exec_ldVxK x s) hfault
  obtain ⟨t, hsecond, hread, hwaiting, hpc, hdt, -, hregs, hpieces⟩ :=
    (blockedCycleScansTheKeys (decayTimers { s.advance with waiting := true, waitReg := x }) ⟨hfault, rfl⟩).1 k hk hlow
  have hkept : t.fault = s.fault := hpieces .fault (by decide)
  refine ⟨t, ?run, ⟨hkept.trans hfault, hwaiting⟩, hread, hpc, ?delay, hregs⟩
  case run => rw [hostRun_cons (a := .cycle) hfirst, hostRun_cons (a := .cycle) hsecond, hostRun]
  case delay =>
    have hdecay : (decayTimer s.dt).toNat = s.dt.toNat - 1 := toNat_decayTimer s.dt
    change t.dt.toNat = (decayTimer s.dt).toNat - 1 at hdt
    omega

/-- The decay keeps every piece but the timers. -/
theorem keepsBut_decayTimers (s : State) : KeepsBut [.delay, .sound] s (decayTimers s) := keepsBut_of_eq_mergeBut rfl

/-- The blocked cycle with no key set only decays the timers (R92). -/
theorem step_blocked_no_key {s : State} (hs : s.Blocked) (hnone : ∀ k : Reg, s.key[k] = false) :
    step s = .next (decayTimers s) := by
  obtain ⟨hfault, hwaiting⟩ := hs
  rw [step_blocked hfault hwaiting, blockedCycle, scanKeys_of_none hnone]

/-- Settles O56: by induction on the number of cycles, each of which leaves a blocked state with the same key flags. -/
theorem blockedMachineWaitsWhileTimersRunOut : Obligations.BlockedMachineWaitsWhileTimersRunOut := by
  intro n
  induction n with
  | zero => exact fun s hs _ => ⟨s, rfl, hs, rfl, rfl, rfl, fun _ _ => rfl, KeepsBut.refl _ s⟩
  | succ n ih =>
    intro s hs hnone
    obtain ⟨t, hrun, hblocked, hpc, hdt, hst, hregs, hpieces⟩ := ih (decayTimers s) hs hnone
    have hdt1 : (decayTimers s).dt.toNat = s.dt.toNat - 1 := toNat_decayTimer s.dt
    have hst1 : (decayTimers s).st.toNat = s.st.toNat - 1 := toNat_decayTimer s.st
    refine ⟨t, ?run, hblocked, hpc, by omega, by omega, hregs, (keepsBut_decayTimers s).trans hpieces⟩
    case run => exact (hostRun_cons (a := .cycle) (step_blocked_no_key hs hnone)).trans hrun

/-! ## The decay of every fault-free cycle -/

section
variable {s t : State}

/-- A fault-free cycle that does not run FX15 takes one unit from DT (R96). -/
theorem dt_of_fault_free_step (hs : s.fault = none) (h : step s = .next t) (ht : t.fault = none)
    (hnot : ∀ x, ¬ s.Runs (.ldDTVx x)) : t.dt.toNat = s.dt.toNat - 1 := by
  rcases step_fault_free_cases hs h ht with ⟨-, rfl⟩ | ⟨i, u, hruns, hu, hok, rfl⟩
  · rw [blockedCycle, decayTimers_dt, scanKeys_timers.1, toNat_decayTimer]
  · have hmem : .delay ∉ writtenPieces i := fun hmem => by
      obtain ⟨x, rfl⟩ := delay_of_mem_writtenPieces hmem
      exact hnot x hruns
    have hkept : u.dt = s.dt := keepsBut_writtenPieces_of_no_fault hu hok .delay hmem
    rw [decayTimers_dt, hkept, toNat_decayTimer]

/-- A fault-free cycle that does not run FX18 takes one unit from ST (R96). -/
theorem st_of_fault_free_step (hs : s.fault = none) (h : step s = .next t) (ht : t.fault = none)
    (hnot : ∀ x, ¬ s.Runs (.ldSTVx x)) : t.st.toNat = s.st.toNat - 1 := by
  rcases step_fault_free_cases hs h ht with ⟨-, rfl⟩ | ⟨i, u, hruns, hu, hok, rfl⟩
  · rw [blockedCycle, decayTimers_st, scanKeys_timers.2, toNat_decayTimer]
  · have hmem : .sound ∉ writtenPieces i := fun hmem => by
      obtain ⟨x, rfl⟩ := sound_of_mem_writtenPieces hmem
      exact hnot x hruns
    have hkept : u.st = s.st := keepsBut_writtenPieces_of_no_fault hu hok .sound hmem
    rw [decayTimers_st, hkept, toNat_decayTimer]

end

/-- Settles O11: the cycles of FX15 and FX18 are those of `setTimersThenDecay`; every other cycle keeps the timer until
its decay. -/
theorem timersDecayInEveryFaultFreeCycle : Obligations.TimersDecayInEveryFaultFreeCycle := by
  intro s t hs h ht
  have answer : ∀ {u}, step s = .next u → u = t := fun hu => Host.Outcome.next.inj (hu.symm.trans h)
  refine ⟨fun x hruns => ?delaySet, dt_of_fault_free_step hs h ht, fun x hruns => ?soundSet,
    st_of_fault_free_step hs h ht⟩
  case delaySet =>
    obtain ⟨-, -, -, -, hdelay, -⟩ := setTimersThenDecay x s
    obtain ⟨u, hu, hdt⟩ := hdelay hruns
    exact answer hu ▸ hdt
  case soundSet =>
    obtain ⟨-, -, -, -, -, hsound⟩ := setTimersThenDecay x s
    obtain ⟨u, hu, hst⟩ := hsound hruns
    exact answer hu ▸ hst

end Sys2Proof.Machine
end

section
/-! Which instructions depend on the keys, on ST and on the redraw flag (spec/10_state.md sections 4 and 5), and what
the host writes (spec/00_scope.md section 5). -/

namespace Sys2Proof.Machine

/-! ## Other keys -/

section
variable (s : State) (keys : Vector Bool 16)

/-- A checked access does not read the keys. -/
theorem State.checked_with_keys (op : Word) (a n : Nat) {k k' : State} (hk : k' = { k with key := keys }) :
    { s with key := keys }.checked op a n k' = { s.checked op a n k with key := keys } := by
  subst hk
  unfold State.checked
  split <;> rfl

/-- A skip that does not depend on the keys moves pc whatever they are. -/
theorem State.advanceSkip_with_keys (taken : Bool) :
    { s with key := keys }.advanceSkip taken = { s.advanceSkip taken with key := keys } := by
  cases taken <;> rfl

end

/-- Settles O23: RET and CALL read the stack alone, checked accesses and skips are blind to the keys, and no other
meaning has a case. -/
theorem onlyKeySkipsReadTheKeys : Obligations.OnlyKeySkipsReadTheKeys := by
  intro i s t keys hi h
  cases i
  case skp x => exact absurd rfl (hi x).1
  case sknp x => exact absurd rfl (hi x).2
  case ret =>
    obtain ⟨rest, top, hs, hu⟩ | ⟨hs, hu⟩ := exec_ret_of_same_stack (s := s) (u := { s with key := keys }) rfl
    all_goals rw [hs] at h; cases h; exact hu
  case call nnn =>
    obtain ⟨hs, hu⟩ | ⟨hs, hu⟩ := exec_call_of_same_stack nnn (s := s) (u := { s with key := keys }) rfl
    all_goals rw [hs] at h; cases h; exact hu
  case seImm | sneImm | seReg | sneReg =>
    cases h
    exact congrArg Host.Outcome.next (s.advanceSkip_with_keys keys _)
  case drw | ldBVx | ldMemVx | ldVxMem =>
    cases h
    exact congrArg Host.Outcome.next (s.checked_with_keys keys _ _ _ rfl)
  all_goals cases h; rfl

/-! ## Another sound timer and redraw flag -/

/-- The two states agree but for ST and the redraw flag. -/
def SameButSoundRedraw (t u : State) : Prop := u = { t with st := u.st, redraw := u.redraw }

section
variable (s : State) (b : Byte) (r : Bool)

/-- Checked accesses from states that agree, with effects that agree, agree. -/
theorem SameButSoundRedraw.checked (op : Word) (a n : Nat) {k k' : State} (hk : SameButSoundRedraw k k') :
    SameButSoundRedraw (s.checked op a n k) ({ s with st := b, redraw := r }.checked op a n k') := by
  unfold State.checked
  split
  · exact hk
  · rfl

/-- Skips from states that agree agree. -/
theorem SameButSoundRedraw.advanceSkip (taken : Bool) :
    SameButSoundRedraw (s.advanceSkip taken) ({ s with st := b, redraw := r }.advanceSkip taken) := by
  cases taken <;> rfl

/-- Key skips from states that agree agree. -/
theorem SameButSoundRedraw.skipOnKey (op : Word) (x : Reg) (wanted : Bool) :
    SameButSoundRedraw (skipOnKey op x wanted s) (skipOnKey op x wanted { s with st := b, redraw := r }) := by
  rcases Nat.lt_or_ge 15 (s.readV x).toNat with hx | hx
  · rw [skipOnKey_unnamed hx, skipOnKey_unnamed (s := { s with st := b, redraw := r }) hx]
    rfl
  · rw [skipOnKey_named hx, skipOnKey_named (s := { s with st := b, redraw := r }) hx]
    exact SameButSoundRedraw.advanceSkip s b r _

end

/-- Settles O24: RET and CALL read the stack alone, checked accesses and skips keep the agreement, and no other meaning
has a case. -/
theorem noInstructionReadsSoundOrRedraw : Obligations.NoInstructionReadsSoundOrRedraw := by
  intro i s t b r h
  change ∃ u, exec i { s with st := b, redraw := r } = .next u ∧ SameButSoundRedraw t u
  cases i
  case ret =>
    obtain ⟨rest, top, hs, hu⟩ | ⟨hs, hu⟩ :=
      exec_ret_of_same_stack (s := s) (u := { s with st := b, redraw := r }) rfl
    all_goals rw [hs] at h; cases h; exact ⟨_, hu, rfl⟩
  case call nnn =>
    obtain ⟨hs, hu⟩ | ⟨hs, hu⟩ :=
      exec_call_of_same_stack nnn (s := s) (u := { s with st := b, redraw := r }) rfl
    all_goals rw [hs] at h; cases h; exact ⟨_, hu, rfl⟩
  case seImm | sneImm | seReg | sneReg =>
    cases h
    exact ⟨_, rfl, SameButSoundRedraw.advanceSkip s b r _⟩
  case skp | sknp =>
    cases h
    exact ⟨_, rfl, SameButSoundRedraw.skipOnKey s b r _ _ _⟩
  case drw | ldBVx | ldMemVx | ldVxMem =>
    cases h
    exact ⟨_, rfl, SameButSoundRedraw.checked s b r _ _ _ rfl⟩
  all_goals cases h; exact ⟨_, rfl, rfl⟩

/-! ## The host's writes -/

/-- Settles O25: the read of a key after it is set, and the frames of the two flags. -/
theorem hostWritesOnlyKeysAndRedraw : Obligations.HostWritesOnlyKeysAndRedraw := fun s k j down _ =>
  ⟨readKey_setKey s k j down, keepsBut_of_eq_mergeBut rfl, fun _ _ => rfl, rfl,
    rfl, keepsBut_of_eq_mergeBut rfl, fun _ _ => rfl, rfl,
    rfl, keepsBut_of_eq_mergeBut rfl, fun _ _ => rfl, rfl⟩

end Sys2Proof.Machine
end

section
/-! Calls, returns, jumps with offset and key skips (spec/41_control_flow.md, spec/42_skip.md). -/

namespace Sys2Proof.Machine

/-- JP V0 is a jump to NNN + V0 (R113). -/
theorem exec_jpV0 (nnn : Addr) (s : State) : exec (.jpV0 nnn) s = .next (s.jump (offsetTarget nnn s)) := rfl

/-- Settles O27: a jump, whose target does not wrap. -/
theorem jumpWithOffsetAddsV0 : Obligations.JumpWithOffsetAddsV0 := fun nnn s =>
  ⟨_, exec_jpV0 nnn s, toNat_offsetTarget nnn s, keepsRegsBut_jump s _, keepsBut_jump s _⟩

/-- A jump that also writes the stack keeps every register and every other piece. -/
theorem frame_jump_stack (s : State) (target : Word) (stack : List Word) :
    KeepsRegsBut [] s { s.jump target with stack := stack } ∧
      KeepsBut [.stack] s { s.jump target with stack := stack } :=
  ⟨keepsRegsBut_of_eq (s.jump_v target) [], keepsBut_of_eq_mergeBut rfl⟩

/-- The word of CALL as a number (R71). -/
theorem toNat_encode_call (nnn : Addr) : (encode (.call nnn)).toNat = 0x2000 + nnn.toNat :=
  toNat_encodeNNN 0x2 nnn

/-- Settles O28: CALL by whether the stack has room. -/
theorem callPushesTheReturnAddress : Obligations.CallPushesTheReturnAddress := by
  intro nnn s
  refine ⟨toNat_encode_call nnn, fun hroom => ?room, fun hfull => ⟨_, exec_call_full nnn hfull.ge, rfl⟩⟩
  case room => exact ⟨_, exec_call_room nnn hroom, rfl, toNat_addrWord nnn, frame_jump_stack s _ _⟩

/-- Settles O29: RET by whether the stack has an entry. -/
theorem returnPopsIntoPc : Obligations.ReturnPopsIntoPc := fun s =>
  ⟨rfl, fun _ _ hs => ⟨_, exec_ret_pop hs, rfl, rfl, frame_jump_stack s _ _⟩, fun hs => ⟨_, exec_ret_empty hs, rfl⟩⟩

/-! ## Sequences of instructions -/

section
variable {i : Instr} {s t : State}

/-- A sequence goes on after an instruction that answers. -/
theorem execAll_cons {rest : List Instr} (h : exec i s = .next t) : execAll (i :: rest) s = execAll rest t := by
  rw [execAll, h]

/-- A sequence goes on after a first part that answers. -/
theorem execAll_append {first rest : List Instr} (h : execAll first s = .next t) :
    execAll (first ++ rest) s = execAll rest t := by
  induction first generalizing s with
  | nil => cases h; rfl
  | cons j first ih =>
    obtain ⟨u, hu⟩ := exec_total j s
    rw [execAll_cons hu] at h
    rw [List.cons_append, execAll_cons hu, ih h]

end

/-- Settles O30: RET pops what CALL pushed. -/
theorem callThenReturnComesBack : Obligations.CallThenReturnComesBack := by
  intro nnn s hroom
  rw [execAll_cons (exec_call_room nnn hroom), execAll_cons (exec_ret_pop rfl), execAll]
  rfl

/-- Calls nested within the depth leave no fault and one stack entry each (R26, R109). -/
theorem execAll_calls_room (targets : List Addr) (s : State) (h : s.stack.length + targets.length ≤ stackDepth) :
    ∃ t, execAll (targets.map .call) s = .next t ∧ t.fault = s.fault ∧
      t.stack.length = s.stack.length + targets.length := by
  induction targets generalizing s with
  | nil => exact ⟨s, rfl, rfl, rfl⟩
  | cons target rest ih =>
    rw [List.length_cons] at h
    have hpushed : (s.stack ++ [s.pc + 2#16]).length = s.stack.length + 1 := List.length_append
    obtain ⟨t, hrun, hfault, hlength⟩ :=
      ih { s.jump (addrWord target) with stack := s.stack ++ [s.pc + 2#16] } (by rw [hpushed]; omega)
    refine ⟨t, ?_, hfault, ?_⟩
    · rw [List.map_cons, execAll_cons (exec_call_room target (by omega)), hrun]
    · rw [hlength, hpushed, List.length_cons]; omega

/-- Settles O31: the first sixteen calls have room; the seventeenth meets a full stack. -/
theorem seventeenthNestedCallOverflows : Obligations.SeventeenthNestedCallOverflows := by
  intro targets s hstack hfault
  have hdepth : stackDepth = 16 := rfl
  have hempty : s.stack.length = 0 := by rw [hstack, List.length_nil]
  refine ⟨fun hlen => ?within, fun hlen => ?beyond⟩
  case within =>
    obtain ⟨t, hrun, ht, hlength⟩ := execAll_calls_room targets s (by omega)
    exact ⟨t, hrun, ht.trans hfault, by omega⟩
  case beyond =>
    rcases List.eq_nil_or_concat' targets with rfl | ⟨front, last, rfl⟩
    · cases hlen
    · rw [List.length_append, List.length_singleton] at hlen
      obtain ⟨t, hrun, -, hlength⟩ := execAll_calls_room front s (by omega)
      have hfull : stackDepth ≤ t.stack.length := by omega
      refine ⟨t.raise .stackOverflow (some (encode (.call last))) none, _, ?_, rfl, rfl, ?_⟩
      · rw [List.map_append, execAll_append hrun, List.map_singleton, execAll_cons (exec_call_full last hfull), execAll]
      · rw [State.raise_stack]; omega

/-! ## Key skips -/

/-- EX9E is a key skip on a set flag (R120). -/
theorem exec_skp (x : Reg) (s : State) : exec (.skp x) s = .next (skipOnKey (encode (.skp x)) x true s) := rfl

/-- EXA1 is a key skip on a clear flag (R121). -/
theorem exec_sknp (x : Reg) (s : State) : exec (.sknp x) s = .next (skipOnKey (encode (.sknp x)) x false s) := rfl

/-- Settles O33: a register up to 15 names a key, whose flag decides the skip; any other raises. -/
theorem keySkipsReadTheNamedKey : Obligations.KeySkipsReadTheNamedKey := by
  intro x s
  refine ⟨fun k hk => ?named, fun hx => ?unnamed⟩
  case named =>
    have hle : (s.readV x).toNat ≤ 15 := by have := k.isLt; omega
    have hdown : s.keyDown (s.readV x).toNat = s.key[k] := by rw [hk]; exact s.keyDown_eq k
    rw [exec_skp, exec_sknp, skipOnKey_named hle, skipOnKey_named hle, hdown]
    exact ⟨congrArg Host.Outcome.next (s.advanceSkip_of_iff (by simp)),
      congrArg Host.Outcome.next (s.advanceSkip_of_iff_not (by simp))⟩
  case unnamed =>
    rw [exec_skp, exec_sknp, skipOnKey_unnamed hx, skipOnKey_unnamed hx]
    exact ⟨_, _, rfl, rfl, rfl, rfl⟩

end Sys2Proof.Machine
end

section
/-! Logic, SUBN, shifts and the random byte (spec/43_alu.md); I arithmetic and glyphs (spec/44_index_memory.md). -/

namespace Sys2Proof.Machine

section
variable (x y : Reg) (nn : Byte) (s : State)

/-- OR writes the bitwise or and no flag (R128). -/
theorem exec_orReg : exec (.orReg x y) s = .next (s.advance.writeV x (s.readV x ||| s.readV y)) := rfl

/-- AND writes the bitwise and and no flag (R129). -/
theorem exec_andReg : exec (.andReg x y) s = .next (s.advance.writeV x (s.readV x &&& s.readV y)) := rfl

/-- XOR writes the bitwise exclusive or and no flag (R130). -/
theorem exec_xorReg : exec (.xorReg x y) s = .next (s.advance.writeV x (s.readV x ^^^ s.readV y)) := rfl

/-- SUBN writes Vy - Vx, then NOT borrow (R134). -/
theorem exec_subn : exec (.subn x y) s =
    .next (s.advance.writeResultThenFlag x (diffByte (s.readV y) (s.readV x))
      (notBorrowFlag (s.readV y) (s.readV x))) := rfl

/-- SHR works on Vx alone under the machine's configuration (R133, D4). -/
theorem exec_shr : exec (.shr x y) s =
    .next (s.advance.writeResultThenFlag x (halfByte (s.readV x)) (lowBitFlag (s.readV x))) := rfl

/-- SHL works on Vx alone under the machine's configuration (R135, D4). -/
theorem exec_shl : exec (.shl x y) s =
    .next (s.advance.writeResultThenFlag x (doubleByte (s.readV x)) (highBitFlag (s.readV x))) := rfl

/-- RND writes the masked draw and consumes it (R136). -/
theorem exec_rnd : exec (.rnd x nn) s =
    .next { s.advance.writeV x (Config.randomByte s.draws &&& nn) with draws := s.draws + 1 } := rfl

/-- ADD I, Vx writes I alone (R147). -/
theorem exec_addIVx : exec (.addIVx x) s = .next { s.advance with i := indexSum s.i (s.readV x) } := rfl

/-- LD F, Vx writes I alone (R148). -/
theorem exec_ldFVx : exec (.ldFVx x) s = .next { s.advance with i := glyphAddr (s.readV x) } := rfl

/-- CLS turns the screen off and sets the redraw flag (R156). -/
theorem exec_cls : exec .cls s = .next { s.advance with fb := Screen.clear, redraw := true } := rfl

end

/-- Settles O35: each meaning is one write of Vx after the default advance, whose bits are the operation's. -/
theorem logicIsBitwiseAndSetsNoFlag : Obligations.LogicIsBitwiseAndSetsNoFlag := by
  intro x y s
  refine ⟨⟨_, exec_orReg x y s, fun b _ => ?or, frame_advance_writeV x _ s⟩,
    ⟨_, exec_andReg x y s, fun b _ => ?and, frame_advance_writeV x _ s⟩,
    ⟨_, exec_xorReg x y s, fun b _ => ?xor, frame_advance_writeV x _ s⟩⟩
  case or => rw [State.readV_writeV_self, BitVec.getLsbD_or]
  case and => rw [State.readV_writeV_self, BitVec.getLsbD_and]
  case xor => rw [State.readV_writeV_self, BitVec.getLsbD_xor]

/-- After a result and its flag VF holds the flag and Vx the result, as numbers (R22). -/
theorem toNat_writeResultThenFlag (s : State) (x : Reg) (result flag : Byte) :
    ((s.writeResultThenFlag x result flag).readV 15).toNat = flag.toNat ∧
      (x ≠ 15 → ((s.writeResultThenFlag x result flag).readV x).toNat = result.toNat) :=
  ⟨congrArg BitVec.toNat (s.readV_writeResultThenFlag_vf x result flag),
    fun hx => congrArg BitVec.toNat (s.readV_writeResultThenFlag_dest x result flag hx)⟩

/-- Settles O38: SUB with the operands exchanged. -/
theorem subnSubtractsTheOtherWay : Obligations.SubnSubtractsTheOtherWay := by
  intro x y s
  obtain ⟨hflag, hdest⟩ := toNat_writeResultThenFlag s.advance x (diffByte (s.readV y) (s.readV x))
    (notBorrowFlag (s.readV y) (s.readV x))
  refine ⟨_, exec_subn x y s, hflag.trans (toNat_notBorrowFlag _ _), fun hx => ?_,
    frame_advance_writeResultThenFlag x _ _ s⟩
  rw [hdest hx, toNat_diffByte]

/-- Settles O39: half or twice Vx, then the bit shifted out. -/
theorem shiftsMoveOneBitIntoVf : Obligations.ShiftsMoveOneBitIntoVf := by
  intro x y s
  constructor
  · obtain ⟨hflag, hdest⟩ := toNat_writeResultThenFlag s.advance x (halfByte (s.readV x)) (lowBitFlag (s.readV x))
    exact ⟨_, exec_shr x y s, hflag.trans (toNat_lowBitFlag _), fun hx => (hdest hx).trans (toNat_halfByte _),
      frame_advance_writeResultThenFlag x _ _ s⟩
  · obtain ⟨hflag, hdest⟩ := toNat_writeResultThenFlag s.advance x (doubleByte (s.readV x)) (highBitFlag (s.readV x))
    exact ⟨_, exec_shl x y s, hflag.trans (toNat_highBitFlag _), fun hx => (hdest hx).trans (toNat_doubleByte _),
      frame_advance_writeResultThenFlag x _ _ s⟩

/-- Settles O40: one write of Vx and of the model's draw counter, whatever the byte drawn is. -/
theorem randomIsTheMaskedDraw : Obligations.RandomIsTheMaskedDraw := by
  intro x nn s
  have hread : (s.advance.writeV x (Config.randomByte s.draws &&& nn)).readV x = Config.randomByte s.draws &&& nn :=
    State.readV_writeV_self s.advance x _
  refine ⟨_, exec_rnd x nn s, fun b _ => ?bits, fun hzero => ?zero, rfl, rfl,
    keepsRegsBut_writeV s.advance x _, keepsBut_of_regs_pc s _ _ _⟩
  case bits => exact (congrArg (BitVec.getLsbD · b) hread).trans BitVec.getLsbD_and
  case zero => exact hread.trans (by rw [hzero, BitVec.and_zero])

/-- The sum in I modulo 65536 (R147). -/
theorem toNat_indexSum (i : Word) (b : Byte) : (indexSum i b).toNat = (i.toNat + b.toNat) % 65536 :=
  BitVec.toNat_ofNat _ 16

/-- A glyph's address does not wrap (R148). -/
theorem toNat_glyphAddr (b : Byte) : (glyphAddr b).toNat = 0x50 + 5 * (b.toNat % 16) := by
  rw [glyphAddr, fontBase, fontGlyphBytes, BitVec.toNat_ofNat, Nat.mod_eq_of_lt (by omega)]

/-- Settles O42: each meaning is one write of I after the default advance. -/
theorem indexAddAndGlyphAddress : Obligations.IndexAddAndGlyphAddress := fun x s =>
  ⟨⟨_, exec_addIVx x s, toNat_indexSum s.i (s.readV x), frame_advance_index s _⟩,
    ⟨_, exec_ldFVx x s, toNat_glyphAddr (s.readV x), frame_advance_index s _⟩⟩

/-- Settles O49: every cell of the cleared screen is off. -/
theorem clsTurnsEveryCellOff : Obligations.ClsTurnsEveryCellOff := fun s =>
  ⟨_, exec_cls s, Screen.cell_clear, rfl, rfl, keepsRegsBut_of_eq s.advance_v [],
    keepsBut_of_regs_pc_screen s s.v (s.pc + 2#16) Screen.clear true⟩

end Sys2Proof.Machine
end

section
/-! Memory transfers (spec/44_index_memory.md) and their ordering (spec/20_memory.md section 5). -/

namespace Sys2Proof.Machine

/-! ## Bytes stored from I on -/

/-- The state that a store of `bs` from I on leaves, I unchanged (R149, R150, D5). -/
def storedState (bs : List Byte) (s : State) : State :=
  { s.advance with mem := s.mem.writeBytes s.i.toNat bs }

section
variable {bs : List Byte} {s : State}

/-- A stored byte reads back from its place (R62). -/
theorem read_storedState (hm : s.mem.wf = true) (hin : s.i.toNat + bs.length ≤ memSize) {k : Nat} (hk : k < bs.length) :
    (storedState bs s).mem.read (effectiveAddr s k) = bs.getD k 0#8 := by
  change (s.mem.writeBytes s.i.toNat bs).read (s.i.toNat + k) = _
  rw [Memory.read_writeBytes hm bs hin, if_pos (by omega), Nat.add_sub_cancel_left]

/-- A store keeps every byte outside its access set. -/
theorem keepsBytesBut_storedState (hm : s.mem.wf = true) (hin : s.i.toNat + bs.length ≤ memSize) :
    KeepsBytesBut (effectiveAddr s 0) bs.length s (storedState bs s) :=
  keepsBytesBut_writeBytes hm hin rfl

/-- Beside memory a store only advances pc. -/
theorem frame_storedState (bs : List Byte) (s : State) : (storedState bs s).pc = s.pc + 2#16 ∧
    KeepsRegsBut [] s (storedState bs s) ∧ KeepsBut [.memory] s (storedState bs s) :=
  ⟨rfl, keepsRegsBut_of_eq s.advance_v [], keepsBut_of_eq_mergeBut rfl⟩

end

/-! ## The three transfers inside memory -/

section
variable {x : Reg} {s : State}

/-- FX33 inside memory stores the decimal digits (R149). -/
theorem exec_ldBVx_inside (h : s.i.toNat + 3 ≤ memSize) :
    exec (.ldBVx x) s = .next (storedState (decimalDigits (s.readV x)) s) :=
  congrArg Host.Outcome.next (State.checked_inside (.inr h))

/-- FX55 inside memory, under any configuration (R150). -/
theorem execLdMemVxUnder_inside (c : Config) (h : s.i.toNat + x.val < memSize) :
    execLdMemVxUnder c x s =
      .next { storedState (s.readVUpTo x) s with i := indexAfterTransfer c x s } :=
  congrArg Host.Outcome.next (State.checked_inside (.inr h))

/-- FX55 inside memory stores V0 to Vx and leaves I (R150, D5). -/
theorem exec_ldMemVx_inside (h : s.i.toNat + x.val < memSize) :
    exec (.ldMemVx x) s = .next (storedState (s.readVUpTo x) s) :=
  execLdMemVxUnder_inside activeConfig h

/-- FX65 inside memory, under any configuration (R151). -/
theorem execLdVxMemUnder_inside (c : Config) (h : s.i.toNat + x.val < memSize) :
    execLdVxMemUnder c x s =
      .next { s.advance with
        v := writeRegsFrom s.v 0 (s.mem.readBytes s.i.toNat (x.val + 1))
        i := indexAfterTransfer c x s } :=
  congrArg Host.Outcome.next (State.checked_inside (.inr h))

/-- FX65 inside memory loads V0 to Vx and leaves I (R151, D5). -/
theorem exec_ldVxMem_inside (h : s.i.toNat + x.val < memSize) :
    exec (.ldVxMem x) s =
      .next { s.advance with v := writeRegsFrom s.v 0 (s.mem.readBytes s.i.toNat (x.val + 1)) } :=
  execLdVxMemUnder_inside activeConfig h

/-- FX55 leaves Vk at I + k (R150). -/
theorem read_storedState_readVUpTo (hm : s.mem.wf = true) (h : s.i.toNat + x.val < memSize) {k : Reg} (hk : k ≤ x) :
    (storedState (s.readVUpTo x) s).mem.read (effectiveAddr s k.val) = s.readV k := by
  have hlen := s.length_readVUpTo x
  have hkx : k.val ≤ x.val := hk
  rw [read_storedState hm (by omega) (by omega), State.getD_readVUpTo s x k hk]

end

/-- The decimal digits of a byte: their value, and that tens and ones are digits (R149). -/
theorem decimalDigits_spec (b : Byte) :
    b.toNat = 100 * ((decimalDigits b).getD 0 0#8).toNat + 10 * ((decimalDigits b).getD 1 0#8).toNat +
        ((decimalDigits b).getD 2 0#8).toNat ∧
      ((decimalDigits b).getD 1 0#8).toNat ≤ 9 ∧ ((decimalDigits b).getD 2 0#8).toNat ≤ 9 := by
  have hlt := b.isLt
  simp only [decimalDigits, List.getD_cons_zero, List.getD_cons_succ, BitVec.toNat_ofNat]
  omega

/-- Settles O43: a store of the three digits. -/
theorem bcdWritesTheDecimalDigits : Obligations.BcdWritesTheDecimalDigits := by
  intro x s hm hi
  have hlen : (decimalDigits (s.readV x)).length = 3 := rfl
  have hin : s.i.toNat + (decimalDigits (s.readV x)).length ≤ memSize := hi
  obtain ⟨hvalue, htens, hones⟩ := decimalDigits_spec (s.readV x)
  refine ⟨_, exec_ldBVx_inside hi, ?_⟩
  rw [read_storedState hm hin (k := 0) (by omega), read_storedState hm hin (k := 1) (by omega),
    read_storedState hm hin (k := 2) (by omega)]
  exact ⟨hvalue, htens, hones, keepsBytesBut_storedState hm hin, frame_storedState _ s⟩

/-- Settles O44: a store of V0 to Vx. -/
theorem storeWritesTheRegisters : Obligations.StoreWritesTheRegisters := by
  intro x s hm hi
  have hlen := s.length_readVUpTo x
  refine ⟨_, exec_ldMemVx_inside hi, fun k hk => read_storedState_readVUpTo hm hi hk, ?_, frame_storedState _ s⟩
  rw [← hlen]
  exact keepsBytesBut_storedState hm (by omega)

/-- Settles O45: each register up to Vx takes the byte of its place, the others stay. -/
theorem loadReadsTheRegisters : Obligations.LoadReadsTheRegisters := fun x s hi =>
  ⟨_, exec_ldVxMem_inside hi, fun k => getElem_writeRegsFrom_readBytes s.v s.mem s.i.toNat x k, rfl,
    keepsBut_of_regs_pc s _ (s.pc + 2#16) s.draws⟩

/-- Under SHIFT_USES_VY a shift works on Vy (R133, R135). -/
theorem shiftSource_vy {c : Config} (hc : c.shiftUsesVy = true) (x y : Reg) (s : State) :
    shiftSource c x y s = s.readV y := if_pos hc

/-- Under LOADSTORE_INCREMENTS_I a transfer leaves I after the last byte moved, modulo 65536 (R150, R151). -/
theorem toNat_indexAfterTransfer {c : Config} (hc : c.loadStoreIncrementsI = true) (x : Reg) (s : State) :
    (indexAfterTransfer c x s).toNat = (s.i.toNat + x.val + 1) % 65536 := by
  rw [indexAfterTransfer, if_pos hc, BitVec.toNat_ofNat]

/-- Settles O46: the operations under the other values of their parameter; the machine's are those under the
spec's. -/
theorem parametersGiveTheOtherConventions : Obligations.ParametersGiveTheOtherConventions := by
  intro c x y s
  refine ⟨fun hc => ?shift, fun hc hi => ?transfer, rfl, rfl, rfl, rfl⟩
  case shift =>
    rw [execShrUnder, execShlUnder, shiftSource_vy hc]
    obtain ⟨hshrFlag, hshrDest⟩ :=
      toNat_writeResultThenFlag s.advance x (halfByte (s.readV y)) (lowBitFlag (s.readV y))
    obtain ⟨hshlFlag, hshlDest⟩ :=
      toNat_writeResultThenFlag s.advance x (doubleByte (s.readV y)) (highBitFlag (s.readV y))
    exact ⟨_, _, rfl, rfl, hshrFlag.trans (toNat_lowBitFlag _), hshlFlag.trans (toNat_highBitFlag _), fun hx =>
      ⟨(hshrDest hx).trans (toNat_halfByte _), (hshlDest hx).trans (toNat_doubleByte _)⟩⟩
  case transfer =>
    exact ⟨_, _, execLdMemVxUnder_inside c hi, execLdVxMemUnder_inside c hi, toNat_indexAfterTransfer hc x s,
      toNat_indexAfterTransfer hc x s⟩

/-- Settles O47: FX65 reads each byte where FX55 stored it. -/
theorem storeThenLoadRestoresTheRegisters : Obligations.StoreThenLoadRestoresTheRegisters := by
  intro x s hm hi
  refine ⟨_, exec_ldMemVx_inside hi, fun u hmem hindex => ?_⟩
  obtain ⟨w, hw, hread, -⟩ := loadReadsTheRegisters x u (by rw [hindex]; exact hi)
  refine ⟨w, hw, fun k hk => ?_⟩
  rw [hread k, if_pos hk, hmem, effectiveAddr, hindex]
  exact read_storedState_readVUpTo hm hi hk

/-- Settles O48: the two bytes of the fetch are two stored registers. -/
theorem storedBytesAreFetched : Obligations.StoredBytesAreFetched := by
  intro x k s hm hi hk
  have hkx : k.val < x.val := hk
  have hnext : (k + 1).val = k.val + 1 := Fin.val_add_one_of_lt (lt_of_lt_of_le hk (Fin.le_last x))
  refine ⟨_, exec_ldMemVx_inside hi, fun u hmem hpc => ?_⟩
  rw [State.fetch_inside (by omega), hmem, hpc, Nat.add_assoc, ← hnext]
  have hfirst := read_storedState_readVUpTo hm hi (Fin.le_of_lt hk)
  have hsecond := read_storedState_readVUpTo hm hi (k := k + 1) (Fin.le_def.2 (by omega))
  rw [effectiveAddr] at hfirst hsecond
  rw [hfirst, hsecond]

end Sys2Proof.Machine
end

section
/-! Two equal draws in a row (spec/45_display.md R159). -/

namespace Sys2Proof.Machine

section
variable {x y : Reg} {n : Nibble} {s : State}

/-- DRW inside memory leaves the drawn state (R158). -/
theorem exec_drw_inside (h : n.toNat = 0 ∨ s.i.toNat + n.toNat ≤ memSize) :
    exec (.drw x y n) s = .next (drawnState x y n s) := by
  rw [exec_drw, State.checked_inside h]

/-- After a draw whose coordinates are not in VF the same draw has the same cells: memory, I, Vx and Vy are kept. -/
theorem drawnCells_drawnState (hx : x ≠ 15) (hy : y ≠ 15) :
    drawnCells x y n (drawnState x y n s) = drawnCells x y n s := by
  obtain ⟨-, hregs, -⟩ := frame_drawnState x y n s
  rw [drawnCells, hregs x (by simpa using hx), hregs y (by simpa using hy)]
  rfl

/-- A second equal draw toggles every cell back. -/
theorem fb_drawnState_twice (hx : x ≠ 15) (hy : y ≠ 15) : (drawnState x y n (drawnState x y n s)).fb = s.fb := by
  refine Screen.ext_cells fun px py _ _ => ?_
  rw [cell_drawnState, cell_drawnState, drawnCells_drawnState hx hy, Bool.xor_assoc, Bool.xor_self, Bool.xor_false]

/-- A second equal draw collides exactly where a cell of the sprite was off before the first. -/
theorem readV_drawnState_twice_vf_eq_one_iff (hx : x ≠ 15) (hy : y ≠ 15) :
    (drawnState x y n (drawnState x y n s)).readV 15 = 1#8 ↔
      ∃ px py, (px, py) ∈ drawnCells x y n s ∧ s.fb.cell px py = false := by
  rw [readV_drawnState_vf, flagByte_eq_one, hit_toggleCells (drawnCells_inside x y n _) (nodup_drawnCells x y n _),
    drawnCells_drawnState hx hy]
  simp only [Bool.false_eq_true, false_or, Prod.exists]
  refine exists_congr fun px => exists_congr fun py => and_congr_right fun hmem => ?_
  rw [cell_drawnState]
  simp [hmem]

end

/-- Settles O51: the second draw has the cells of the first, so it toggles them back, and it erases those that the first
turned on. -/
theorem drawingTwiceRestoresTheScreen : Obligations.DrawingTwiceRestoresTheScreen := by
  intro x y n s hx hy hin
  refine ⟨drawnState x y n (drawnState x y n s), ?run, fb_drawnState_twice hx hy, ?collision⟩
  case run =>
    rw [execAll_cons (exec_drw_inside hin), execAll_cons (exec_drw_inside (s := drawnState x y n s) hin), execAll]
  case collision =>
    rw [readV_drawnState_twice_vf_eq_one_iff hx hy]
    simp only [mem_drawnCells]
    constructor
    · rintro ⟨px, py, ⟨r, c, hr, hc, hbit, rfl, rfl⟩, hoff⟩
      exact ⟨r, c, hr, hc, hbit, hoff⟩
    · rintro ⟨r, c, hr, hc, hbit, hoff⟩
      exact ⟨_, _, ⟨r, c, hr, hc, hbit, rfl, rfl⟩, hoff⟩

end Sys2Proof.Machine
end

section
/-! How a program comes to run: the placed word, the reset state and the loaded image (spec/10_state.md section 7,
spec/70_reset_and_hazards.md). -/

namespace Sys2Proof.Machine

/-! ## A word in memory -/

/-- The two bytes written first read back as a pair (R62). -/
theorem Memory.read_writeBytes_pair {m : Memory} (hm : m.wf = true) {a : Nat} {hi lo : Byte} {rest : List Byte}
    (hin : a + (rest.length + 2) ≤ memSize) :
    (m.writeBytes a (hi :: lo :: rest)).read a = hi ∧ (m.writeBytes a (hi :: lo :: rest)).read (a + 1) = lo := by
  have hlen : (hi :: lo :: rest).length = rest.length + 2 := rfl
  constructor
  · rw [Memory.read_writeBytes hm _ (by omega), if_pos (by omega), Nat.sub_self, List.getD_cons_zero]
  · rw [Memory.read_writeBytes hm _ (by omega), if_pos (by omega), Nat.add_sub_cancel_left, List.getD_cons_succ,
      List.getD_cons_zero]

/-- A placed word lies inside memory (log 6). -/
theorem withFetchWord_pc_inside (s : State) (nbits w : Nat) : (s.withFetchWord nbits w).pc.toNat + 2 ≤ memSize := by
  change (if s.pc.toNat + 2 ≤ memSize then s.pc else BitVec.ofNat 16 loadAddr).toNat + 2 ≤ memSize
  split
  · assumption
  · decide

/-- A placed word stands in memory at pc, the rest of which is as before. -/
theorem withFetchWord_mem (s : State) (nbits w : Nat) : (s.withFetchWord nbits w).mem =
    s.mem.writeBytes (s.withFetchWord nbits w).pc.toNat (bytesOfWord (tableWord nbits w)) := rfl

/-- A table word that reads as an instruction decodes to it. -/
theorem decode_of_decodeTableWord {nbits w : Nat} {i : Instr} (h : decodeTableWord nbits w = some i) :
    decode (bytesOfWord (tableWord nbits w)) = .instr i := by
  unfold decodeTableWord at h
  split at h <;> cases h
  assumption

/-- The state with a placed word runs its instruction. -/
theorem withFetchWord_runs {s : State} {nbits w : Nat} {i : Instr} (hm : s.mem.wf = true)
    (h : decodeTableWord nbits w = some i) : (s.withFetchWord nbits w).Runs i := by
  have hpc := withFetchWord_pc_inside s nbits w
  obtain ⟨hhi, hlo⟩ := Memory.read_writeBytes_pair hm (rest := []) hpc
  refine ⟨⟨rfl, rfl⟩, hpc, ?_⟩
  rw [withFetchWord_mem, bytesOfWord, hhi, hlo]
  exact decode_of_decodeTableWord h

/-- Settles O5: the placed state runs the instruction, so its step is that instruction's cycle. -/
theorem placedWordIsExecuted : Obligations.PlacedWordIsExecuted := fun _ _ _ hm h =>
  have hruns := withFetchWord_runs hm h
  ⟨hruns, step_of_runs hruns⟩

/-- Settles O59: the image's first two bytes stand at LOAD_ADDR, where the loaded machine's pc is. -/
theorem loadedProgramStartsAtItsFirstWord : Obligations.LoadedProgramStartsAtItsFirstWord := by
  intro hi lo rest i s hlen hd
  have hfits : (hi :: lo :: rest).length ≤ maxImage := Nat.add_le_add_right hlen 2
  have hin : loadAddr + (rest.length + 2) ≤ memSize := Nat.add_le_of_le_sub' (by decide) hfits
  obtain ⟨hhi, hlo⟩ := Memory.read_writeBytes_pair Memory.wf_nil (hi := hi) (lo := lo) hin
  have hvector : (BitVec.ofNat 16 loadAddr).toNat + 1 < memSize := by decide
  rw [load_fits hfits]
  refine ⟨⟨⟨rfl, rfl⟩, hvector, ?_⟩, rfl⟩
  change decode [Memory.read (Memory.writeBytes [] loadAddr (hi :: lo :: rest)) loadAddr,
    Memory.read (Memory.writeBytes [] loadAddr (hi :: lo :: rest)) (loadAddr + 1)] = _
  rw [hhi, hlo, hd]

/-! ## The reset state -/

/-- Outside the font memory is 0 after reset (R36, R59). -/
theorem read_reset_outside_font {a : Nat} (h : a < 0x50 ∨ 0x9F < a) : State.reset.mem.read a = 0#8 := by
  rcases h with h | h
  · exact if_pos h
  · exact resetByte_above_font a h

/-- The reset state runs SYS 0x000: memory is 0 at the reset vector (R205). -/
theorem reset_runs_sys : State.reset.Runs (.sys 0x000#12) := by
  refine ⟨⟨rfl, rfl⟩, by decide, ?_⟩
  rw [read_reset_outside_font (.inr (by decide)), read_reset_outside_font (.inr (by decide))]
  rfl

/-- Settles O57: the font byte by byte, the other fields by R36's table, the first step by the SYS at the reset
vector. -/
theorem resetStateIsTheTable : Obligations.ResetStateIsTheTable := by
  refine ⟨?font, fun a ha => read_reset_outside_font ha, fun x => ?registers, rfl, rfl, rfl, rfl, rfl,
    Screen.cell_clear, fun k => ?keys, rfl, rfl, rfl, rfl, _, step_of_runs reset_runs_sys, rfl⟩
  case font =>
    intro g k hg hk
    revert k hk
    revert g hg
    decide
  case registers => exact Vector.getElem_replicate x.isLt
  case keys => exact Vector.getElem_replicate k.isLt

end Sys2Proof.Machine
end
